-- ==== Sys2Proof/Word.lean ====
section
/-! DEFINITION. The word types of the block: 32-bit registers and bus data (R25, R60), bytes of the
sector buffer (R22), and block offsets `0 ≤ off < 0x4000` (R60). -/

namespace Sys2Proof

/-- A control register, a command word, an EDC value or one 32-bit bus datum (R25, R60). -/
abbrev Word := BitVec 32

/-- One byte of the sector buffer or one entry of `ECC_F` / `ECC_B` (R22, R34, R35). -/
abbrev Byte := BitVec 8

/-- A block offset: the port's transactions carry `off` with `0 ≤ off < 0x4000` (R60). -/
abbrev Offset := BitVec 14

end Sys2Proof
end

