-- ==== Sys2Proof/Syntax.lean ====
section
/-! DEFINITION. The commands of the block: one constructor for every row of spec/opcode_table.json (R92, R93). -/

namespace Sys2Proof

/-- A command (R16, R92). `za` is the zeroAddress option of the three ECC commands (R91, R136). -/
inductive Instr where
  /-- NOP (R161) -/
  | nop
  /-- GEN.T0: `eccedcGenerate` with TYPE 0, which does nothing (R162) -/
  | genT0
  /-- GEN.T1: Mode 1 (R163) -/
  | genT1
  /-- GEN.T2: Mode 2 Form 1 (R164) -/
  | genT2
  /-- GEN.T3: Mode 2 Form 2 (R165) -/
  | genT3
  /-- EDC over the region of the operand registers (R114) -/
  | edc
  /-- ECCP: P parity only (R137) -/
  | eccp (za : Bool)
  /-- ECCQ: Q parity only (R138) -/
  | eccq (za : Bool)
  /-- ECCPQ: `eccGenerate(sector, ZA)`, P then Q (R139) -/
  | eccpq (za : Bool)
deriving DecidableEq, Repr

end Sys2Proof
end

