-- ==== Sys2Proof/Config.lean ====
section
/-! DEFINITION. What the document fixes (R3, R7, R30), and the parameters the spec leaves open
(R8, R186; spec/93_implementation_defined.md, section 2). An open parameter is an `opaque` constant:
no proof can see its value, so every claim holds for every value of it. -/

namespace Sys2Proof.Config

/-- The sector buffer holds exactly 2352 bytes (R7, R22). -/
def sectorSize : Nat := 2352

/-- The reflected EDC polynomial; EDC_POLY always reads it (R3, R30). -/
def edcPoly : Word := 0xD8018001#32

/-- The reducing polynomial of GF(2⁸); GF_POLY always reads it (R3, R30). -/
def gfPoly : Word := 0x0000011D#32

/-- Bytes of the block's platform window (R8, R60). -/
def windowSize : Nat := 0x4000

/-- `BASE`: the platform address at which the block's window starts; OPEN (R8). -/
opaque base : Nat

/-- `T_INIT`: how many cycles STATUS.BUSY stays 1 after reset is released; finite, OPEN (R8, R211). -/
opaque tInit : Nat

/-- `T_CMD(op)`: how many cycles a command keeps STATUS.BUSY at 1; finite, OPEN (R8, R218). -/
opaque tCmd : Instr → Nat

/-- How many STATUS reads the host gets answered during a BUSY window of `cycles` cycles, the
`window`-th BUSY window of the run. No source gives the host's pace or any timing (R190, R218), so the number is a
free value, fresh for each BUSY window. Assumption log entry 2. -/
opaque pollsIn (cycles window : Nat) : Nat

/-- What the host does on a BUSERR response (R186). -/
inductive BusErrReaction where
  /-- the host goes on with its next access -/
  | goesOn
  /-- the access is a fault of the host's program -/
  | faults
deriving DecidableEq, Repr, Inhabited

/-- `ON_BUSERR`: the host's reaction to a BUSERR; OPEN (R186, D21). It may differ from one BUSERR to
the next, so it is applied to the number of responses the port has already given. Assumption log entry 3. -/
opaque onBusErr (responsesBefore : Nat) : BusErrReaction

end Sys2Proof.Config
end

