-- ==== Sys2Proof/Machine/State.lean ====
section
/-! DEFINITION. The state of the block (R20 to R41), the host's accesses waiting at its port and the responses the port
has given (R60), the reasons a step stops, and the state right after reset (R210). -/

namespace Sys2Proof.Machine

/-- The sector buffer as data: pairs of an offset and a byte, offsets rising, no pair whose byte is 0x00, since an
offset that is not listed reads 0x00, the value reset leaves (R22, R24). `Memory.wf` in Machine/Ops.lean says so. -/
abbrev Memory := List Host.Cell

/-- STATUS by its fields (R27). Bits 3 and 31:8 are reserved and read 0; `Status.toWord` lays the word out. -/
structure Status where
  /-- bit 0: the sequencer is in INIT or EXEC -/
  busy : Bool
  /-- bit 1: the most recent command written completed without error -/
  done : Bool
  /-- bit 2: the most recent command written was rejected -/
  err : Bool
  /-- bits 7:4: the cause of the rejection (R180), 0 when ERR = 0 -/
  errCode : BitVec 4
deriving DecidableEq, Repr

/-- The sequencer's state, in place of a program counter (R21, R32). -/
inductive Sequencer where
  /-- waits for a command write -/
  | idle
  /-- initialises after reset (R211) -/
  | init
  /-- executes an accepted command (R181) -/
  | exec (c : Instr)
deriving DecidableEq, Repr

/-- One host-port transaction at a block offset (R13, R60). The size is a number of bytes: sizes other
than 1 and 4 get BUSERR, if the bus can express them (R69). -/
inductive Access where
  | read (off : Offset) (size : Nat)
  | write (off : Offset) (size : Nat) (value : Word)
deriving DecidableEq, Repr

/-- What arrives from outside: the host's accesses in issue order (R60, R72), and the reset input (R210). -/
inductive HostEvent where
  /-- one host-port access -/
  | access (a : Access)
  /-- reset is asserted, and released, with no access in flight (R210, R211) -/
  | reset
  /-- reset is asserted while the access `a` is in progress: the access has an undefined outcome (R210) -/
  | resetDuring (a : Access)
deriving DecidableEq, Repr

/-- The port's response to one access (R60). A 1-byte read answers the byte zero-extended (R65, R67). -/
inductive Response where
  /-- a read's data, with response OKAY -/
  | data (value : Word)
  /-- a write's response OKAY -/
  | okay
  /-- BUSERR (R69, R186) -/
  | busErr
deriving DecidableEq, Repr

/-- Why the machine stops with a fault. -/
inductive Fault where
  /-- The host's program faults on a BUSERR response: the spec leaves the host's reaction open as ON_BUSERR and says a
  host-program model should fault (R186, D21). Raised by `deliverBusErr` in Machine/Port.lean, only where
  `Config.onBusErr` says so. Safe: the block itself goes on. -/
  | busError
deriving DecidableEq, Repr

/-- Why the machine gives no meaning. -/
inductive Refusal where
  /-- An instruction without a meaning; no arm of this model answers it. Safe. -/
  | notModelled (mnemonic : String)
  /-- Reset was asserted during an access, whose outcome the spec calls undefined and asks a model to refuse (R210; D28;
  spec/93_implementation_defined.md, section 2). Raised by `step`. Safe. -/
  | accessInFlightAtReset
deriving DecidableEq, Repr

/-- The machine. The three tables, EDC_POLY and GF_POLY are constants (R30, R36) and the latches of R40 are local to a
command, so none of them is a field. The last three fields are the model's own. -/
structure State where
  /-- the 2352-byte sector buffer `S` (R22) -/
  sector : Memory
  /-- CMD: the last word written to offset 0x1000, accepted or not (R26) -/
  cmd : Word
  /-- STATUS (R27) -/
  status : Status
  /-- EDC_VALUE: the EDC of the most recent command that computed one (R28) -/
  edcValue : Word
  /-- EDC_SRC: first offset of the EDC region (R29) -/
  edcSrc : Word
  /-- EDC_LEN: its length in bytes (R29) -/
  edcLen : Word
  /-- EDC_DST: where the EDC command stores its result (R29) -/
  edcDst : Word
  /-- the sequencer (R21, R32) -/
  seq : Sequencer
  /-- the host's accesses, and resets, that the block has not performed yet, in issue order (R60, R72) -/
  port : List HostEvent
  /-- the responses the port has given, oldest first (R60) -/
  responses : List Response
  /-- how many BUSY windows have begun: the counter that draws the free value `Config.pollsIn` -/
  windows : Nat
deriving DecidableEq, Repr

/-- The machine right after reset, with INIT not over yet (R210): the buffer all 0x00, every register 0, STATUS.BUSY = 1, the
sequencer in INIT. Nothing waits at the port (DESIGN CHOICE, assumption log entry 4). -/
def State.reset : State where
  sector := []
  cmd := 0#32
  status := { busy := true, done := false, err := false, errCode := 0#4 }
  edcValue := 0#32
  edcSrc := 0#32
  edcLen := 0#32
  edcDst := 0#32
  seq := .init
  port := []
  responses := []
  windows := 0

end Sys2Proof.Machine
end

