-- ==== Sys2Proof/Machine/Operands.lean ====
section
/-! DEFINITION. The operands of the commands: the EDC operand registers and their range check (R114, R182), the two ECC parameter
sets (R133, R134), and what the layout multiplexer selects for each TYPE (R115, R160). -/

namespace Sys2Proof.Machine

/-- An EDC region `start .. start + len` of the sector buffer and the offset its EDC is stored at (R112, R115). -/
structure EdcRegion where
  start : Nat
  len   : Nat
  dst   : Nat
deriving DecidableEq, Repr

/-- The region that the operand registers give, as unsigned integers (R29, R114). -/
def State.edcRegion (s : State) : EdcRegion := ⟨s.edcSrc.toNat, s.edcLen.toNat, s.edcDst.toNat⟩

/-- `EdcRangeOK()`: three comparisons on unbounded integers (R182). -/
def EdcRegion.inRange (r : EdcRegion) : Bool :=
  r.start ≤ Config.sectorSize && r.len ≤ Config.sectorSize - r.start && r.dst ≤ Config.sectorSize - 4

/-- The four integers that select an interleave, and the destination base (R130, R131). -/
structure EccParams where
  majorCount : Nat
  minorCount : Nat
  majorMult  : Nat
  minorInc   : Nat
  dst        : Nat
deriving DecidableEq, Repr

/-- The base offset of the ECC source region (R7, R133, R134). -/
def eccSrc : Nat := 0x00C

/-- P parity: (86, 24, 2, 86) to 0x81C (R133). -/
def paramsP : EccParams := ⟨86, 24, 2, 86, 0x81C⟩

/-- Q parity: (52, 43, 86, 88) to 0x8C8 (R134). -/
def paramsQ : EccParams := ⟨52, 43, 86, 88, 0x8C8⟩

/-- `size`, the number of source indices a pass reads (R131). -/
def EccParams.size (p : EccParams) : Nat := p.majorCount * p.minorCount

/-- What one TYPE of GEN selects: one row of the table of R160. -/
structure Layout where
  /-- the EDC region and its destination -/
  edc : Option EdcRegion
  /-- whether the zero-pad 0x814 to 0x81B is written -/
  zeroPad : Bool
  /-- whether P then Q run, and with which ZA -/
  ecc : Option Bool
deriving DecidableEq, Repr

/-- TYPE 0: nothing (R160, R162). -/
def layoutT0 : Layout := ⟨none, false, none⟩

/-- TYPE 1, Mode 1 (R115, R160, R163). -/
def layoutT1 : Layout := ⟨some ⟨0x000, 0x810, 0x810⟩, true, some false⟩

/-- TYPE 2, Mode 2 Form 1 (R115, R160, R164). -/
def layoutT2 : Layout := ⟨some ⟨0x010, 0x808, 0x818⟩, false, some true⟩

/-- TYPE 3, Mode 2 Form 2 (R115, R160, R165). -/
def layoutT3 : Layout := ⟨some ⟨0x010, 0x91C, 0x92C⟩, false, none⟩

/-- The offset of the Mode 1 zero-pad (R23, R160). -/
def zeroPadOffset : Nat := 0x814

/-- The length of the Mode 1 zero-pad (R23, R160). -/
def zeroPadLength : Nat := 8

end Sys2Proof.Machine
end

