-- ==== Sys2Proof/Machine/Flags.lean ====
section
/-! DEFINITION. STATUS: its word, the error codes, and how each event of a command changes its fields
(R27, R180, R181). -/

namespace Sys2Proof.Machine

/-- The two causes for which the block rejects a command (R180). -/
inductive CommandError where
  /-- the word written to CMD is not a legal word -/
  | illegalCmd
  /-- the EDC command's operands fail the check of R182 -/
  | edcRange
deriving DecidableEq, Repr

/-- ERRCODE of each cause; 0 is NONE and 3 to 15 are never produced (R180). -/
def CommandError.code : CommandError → BitVec 4
  | .illegalCmd => 1#4
  | .edcRange => 2#4

/-- STATUS as the host reads it: ERRCODE in bits 7:4, ERR in 2, DONE in 1, BUSY in 0, zeros elsewhere (R27). -/
def Status.toWord (st : Status) : Word :=
  0#24 ++ (st.errCode ++ (0#1 ++ (BitVec.ofBool st.err ++ (BitVec.ofBool st.done ++ BitVec.ofBool st.busy))))

/-- DONE, ERR and ERRCODE are cleared: every CMD write does so, and nothing else does (R181, R185). -/
def Status.cleared (st : Status) : Status := { st with done := false, err := false, errCode := 0#4 }

/-- ERR is set with the code of the cause (R181). -/
def Status.rejected (st : Status) (e : CommandError) : Status := { st with err := true, errCode := e.code }

/-- BUSY is set: the sequencer enters EXEC (R181). -/
def Status.started (st : Status) : Status := { st with busy := true }

/-- BUSY is cleared and DONE is set: the command has completed (R181). -/
def Status.completed (st : Status) : Status := { st with busy := false, done := true }

/-- BUSY is cleared: INIT has ended (R211). -/
def Status.initialised (st : Status) : Status := { st with busy := false }

end Sys2Proof.Machine
end

