-- ==== Sys2Proof/Machine/Ops.lean ====
section
/-! DEFINITION. The named operations every meaning uses: the sector buffer's bytes, the fields of State, rejecting a command (the
block's one exception mechanism, R184) and the return from that (R185), and running an accepted command from IDLE
back to IDLE (R181, R218). -/

namespace Sys2Proof.Machine

/-! ### The sector buffer -/

/-- The stored form: offsets strictly rising and below 2352, no byte equal to 0x00 (R22, R24). -/
abbrev Memory.wf (m : Memory) : Prop :=
  m.Pairwise (fun x y => x.1 < y.1) ∧ ∀ c ∈ m, c.1 < Config.sectorSize ∧ c.2 ≠ 0#8

/-- What a byte reads as that nothing has written since reset (R24). -/
def unwrittenByte : Byte := 0x00#8

/-- `S[o]` (R12, R22). -/
def Memory.read : Memory → Nat → Byte
  | [], _ => unwrittenByte
  | (x, c) :: rest, o => if x = o then c else Memory.read rest o

/-- Puts a byte at its place in the stored form; 0x00 is stored by not being listed. -/
def Memory.put : Memory → Nat → Byte → Memory
  | [], o, b => if b = unwrittenByte then [] else [(o, b)]
  | (x, c) :: rest, o, b =>
    if o < x then (if b = unwrittenByte then (x, c) :: rest else (o, b) :: (x, c) :: rest)
    else if o = x then (if b = unwrittenByte then rest else (o, b) :: rest)
    else (x, c) :: Memory.put rest o b

/-- `S[o] <- b` (R12). The buffer has no byte at 2352 or above (R22); no operation of the model names one
(assumption log entry 6), and such a write would change nothing. -/
def Memory.write (m : Memory) (o : Nat) (b : Byte) : Memory :=
  if o < Config.sectorSize then m.put o b else m

/-- `S[o .. o + n]` (R12). -/
def Memory.readBytes (m : Memory) (o n : Nat) : List Byte := (List.range' o n).map m.read

/-- Writes consecutive bytes, the lowest offset first. -/
def Memory.writeBytes (m : Memory) (o : Nat) : List Byte → Memory
  | [] => m
  | b :: rest => Memory.writeBytes (m.write o b) (o + 1) rest

/-- The bytes of a word, bits 7:0 first (R12, R62). -/
def leBytes (v : Word) : List Byte :=
  [v.extractLsb' 0 8, v.extractLsb' 8 8, v.extractLsb' 16 8, v.extractLsb' 24 8]

/-- `{b3, b2, b1, b0}`: four bytes as one little-endian value (R62). -/
def leWord (b0 b1 b2 b3 : Byte) : Word := b3 ++ (b2 ++ (b1 ++ b0))

/-- `StoreLE32(o, v)` (R12, R63). -/
def Memory.storeLE32 (m : Memory) (o : Nat) (v : Word) : Memory := m.writeBytes o (leBytes v)

/-- The little-endian value of the four bytes at `o` (R62, R65). -/
def Memory.loadLE32 (m : Memory) (o : Nat) : Word :=
  leWord (m.read o) (m.read (o + 1)) (m.read (o + 2)) (m.read (o + 3))

/-! ### The fields of State -/

def State.setSector (s : State) (m : Memory) : State := { s with sector := m }
def State.setCmd (s : State) (w : Word) : State := { s with cmd := w }
def State.setStatus (s : State) (st : Status) : State := { s with status := st }
def State.setEdcValue (s : State) (v : Word) : State := { s with edcValue := v }
def State.setEdcSrc (s : State) (v : Word) : State := { s with edcSrc := v }
def State.setEdcLen (s : State) (v : Word) : State := { s with edcLen := v }
def State.setEdcDst (s : State) (v : Word) : State := { s with edcDst := v }
def State.setSeq (s : State) (q : Sequencer) : State := { s with seq := q }
def State.setPort (s : State) (p : List HostEvent) : State := { s with port := p }

/-- The port gives these responses. -/
def State.respond (s : State) (rs : List Response) : State := { s with responses := s.responses ++ rs }

/-- One more BUSY window has begun. -/
def State.nextWindow (s : State) : State := { s with windows := s.windows + 1 }

/-! ### BUSY windows -/

/-- The offset of STATUS (R25). -/
def statusOffset : Offset := 0x1004#14

/-- A 4-byte read of STATUS, the one access the port answers while BUSY = 1 (R71). -/
def HostEvent.isStatusRead (e : HostEvent) : Bool := e == .access (.read statusOffset 4)

/-- Answers the STATUS reads at the head of the queue with `v`, at most `k` of them: the responses, and the accesses that
stay held (R71). -/
def answerPolls (v : Word) : List HostEvent → Nat → List Response × List HostEvent
  | [], _ => ([], [])
  | e :: rest, k =>
    if e.isStatusRead then
      match k with
      | 0 => ([], e :: rest)
      | k + 1 => (.data v :: (answerPolls v rest k).1, (answerPolls v rest k).2)
    else ([], e :: rest)

/-- A BUSY window of `cycles` cycles: the port answers the STATUS reads that come at once with the current STATUS and holds
every other access (R71). How many come in time is a free value (assumption log entry 2). -/
def State.busyWindow (cycles : Nat) (s : State) : State :=
  let r := answerPolls s.status.toWord s.port (Config.pollsIn cycles s.windows)
  ((s.respond r.1).setPort r.2).nextWindow

/-- INIT ends: the sequencer moves to IDLE and BUSY becomes 0 (R211). -/
def State.endInit (s : State) : State :=
  let s1 := s.busyWindow Config.tInit
  (s1.setStatus s1.status.initialised).setSeq .idle

/-! ### Rejecting a command, the block's exception, and the return from it -/

/-- Error return (R185): a CMD write, whatever word it carries, clears DONE, ERR and ERRCODE (R181). -/
def State.clearOutcome (s : State) : State := s.setStatus s.status.cleared

/-- Error entry (R184): ERR and ERRCODE are set and nothing else of the command happens; CMD already holds the word. There is
no vector, no saved context and no mode change. -/
def State.reject (e : CommandError) (s : State) : State :=
  let s1 := s.clearOutcome
  s1.setStatus (s1.status.rejected e)

/-! ### Running an accepted command -/

/-- Acceptance without error: the outcome of the command before is cleared, BUSY is set and the sequencer enters EXEC (R181). -/
def State.start (c : Instr) (s : State) : State :=
  let s1 := s.clearOutcome
  (s1.setStatus s1.status.started).setSeq (.exec c)

/-- Completion: BUSY is cleared, DONE is set and the sequencer returns to IDLE (R181). -/
def State.complete (s : State) : State := (s.setStatus s.status.completed).setSeq .idle

/-- An accepted command as one step from IDLE back to IDLE (R181, R218): it starts, STATUS reads are answered while it is
BUSY, its pseudocode runs, it completes. -/
def State.runCommand (c : Instr) (body : State → State) (s : State) : State :=
  (body ((s.start c).busyWindow (Config.tCmd c))).complete

/-! ### Reset -/

/-- The reset input (R210), with reset released again: all state takes its reset value. What has happened at the port
before, and the accesses the host issues after, are not the block's to change. -/
def State.assertReset (s : State) : State :=
  { State.reset with port := s.port, responses := s.responses, windows := s.windows }

end Sys2Proof.Machine
end

