-- ==== Sys2Proof/Machine/Tables.lean ====
section
/-! DEFINITION. The three constant tables EDC_LUT, ECC_F and ECC_B, as the functions their rules define
(R33, R34, R35). -/

namespace Sys2Proof.Machine

/-- One bit of the reflected CRC: the body of the loop of R33. -/
def crcBit (v : Word) : Word := (v >>> 1) ^^^ (if v.getLsbD 0 then Config.edcPoly else 0#32)

/-- `EDC_LUT[i]`: `crcBit` eight times from `zext_32(i)` (R33). -/
def edcLut (i : Byte) : Word := Nat.repeat crcBit 8 (i.setWidth 32)

/-- `ECC_F[i] = trunc_8((i << 1) XOR (0x11D if i[7] = 1 else 0))`: multiplication by α in GF(2⁸) (R34). The sum is
formed at the width of GF_POLY, so nothing is cut off before `trunc_8`. -/
def eccF (i : Byte) : Byte :=
  ((i.setWidth 32 <<< 1) ^^^ (if i.getLsbD 7 then Config.gfPoly else 0#32)).setWidth 8

/-- Looks for the `i` with `i XOR ECC_F[i] = y` among the last `n` bytes, the lowest first. -/
def eccBFind (y : Byte) : Nat → Byte
  | 0 => 0#8
  | n + 1 =>
    if BitVec.ofNat 8 (255 - n) ^^^ eccF (BitVec.ofNat 8 (255 - n)) = y then BitVec.ofNat 8 (255 - n)
    else eccBFind y n

/-- `ECC_B[y]`: the one `i` with `i XOR ECC_F[i] = y`, so `y` divided by α+1 in GF(2⁸) (R35). -/
def eccB (y : Byte) : Byte := eccBFind y 256

end Sys2Proof.Machine
end

