-- ==== Sys2Proof/Machine/Ecc.lean ====
section
/-! DEFINITION. The P and Q parity encoders and the commands ECCP, ECCQ and ECCPQ (spec/41_ecc.md). -/

namespace Sys2Proof.Machine

/-- The next source index of a column: `index + minorInc`, less `size` when it reaches `size` (R131). -/
def EccParams.nextIndex (p : EccParams) (index : Nat) : Nat :=
  if index + p.minorInc ≥ p.size then index + p.minorInc - p.size else index + p.minorInc

/-- The first source index of column `major`: `(major >> 1) * majorMult + (major & 1)` (R131). -/
def EccParams.firstIndex (p : EccParams) (major : Nat) : Nat :=
  (major >>> 1) * p.majorMult + (major &&& 1)

/-- `n` source indices in read order, from `index` on (R131). -/
def EccParams.indicesFrom (p : EccParams) (index : Nat) : Nat → List Nat
  | 0 => []
  | n + 1 => index :: p.indicesFrom (p.nextIndex index) n

/-- The source indices that column `major` reads, in read order (R131). -/
def EccParams.columnIndices (p : EccParams) (major : Nat) : List Nat :=
  p.indicesFrom (p.firstIndex major) p.minorCount

/-- The bytes `t_0 .. t_{n-1}` that column `major` reads, in read order (R131). -/
def Memory.eccColumn (m : Memory) (p : EccParams) (major : Nat) : List Byte :=
  (p.columnIndices major).map (fun index => m.read (eccSrc + index))

/-- The accumulators `eccA` and `eccB` (R40, R131). -/
structure EccAcc where
  a : Byte
  b : Byte
deriving DecidableEq, Repr

/-- One byte of a column: both accumulators take it, then `eccA` is multiplied by α (R131). -/
def eccAdd (acc : EccAcc) (t : Byte) : EccAcc := ⟨eccF (acc.a ^^^ t), acc.b ^^^ t⟩

/-- The accumulators after a column's bytes, from 0 and 0 (R131). -/
def eccAccumulate (ts : List Byte) : EccAcc := ts.foldl eccAdd ⟨0#8, 0#8⟩

/-- The column's first parity byte, `ECC_B[ECC_F[eccA] XOR eccB]` (R131). -/
def parity0 (ts : List Byte) : Byte :=
  eccB (eccF (eccAccumulate ts).a ^^^ (eccAccumulate ts).b)

/-- The column's second parity byte, the first XOR `eccB` (R131). -/
def parity1 (ts : List Byte) : Byte := parity0 ts ^^^ (eccAccumulate ts).b

/-- One column of a pass: its reads, then its two writes (R131). -/
def Memory.eccWriteColumn (p : EccParams) (m : Memory) (major : Nat) : Memory :=
  let ts := m.eccColumn p major
  (m.write (p.dst + major) (parity0 ts)).write (p.dst + major + p.majorCount) (parity1 ts)

/-- `EccBlock(0x00C, …)`: the columns in order, in place (R131). -/
def Memory.eccBlock (p : EccParams) (m : Memory) : Memory :=
  (List.range p.majorCount).foldl (Memory.eccWriteColumn p) m

/-- `WithZeroAddress(za, body)`: with ZA = 1 the bytes 0x00C to 0x00F are saved, zeroed for the body, and restored (R136). -/
def Memory.withZeroAddress (za : Bool) (body : Memory → Memory) (m : Memory) : Memory :=
  if za then
    (body (m.writeBytes eccSrc [0#8, 0#8, 0#8, 0#8])).writeBytes eccSrc (m.readBytes eccSrc 4)
  else body m

/-- P first, then Q, which reads the new P (R139, R168). -/
def Memory.eccPQ (m : Memory) : Memory := (m.eccBlock paramsP).eccBlock paramsQ

/-- A command body that rewrites the sector buffer and nothing else. -/
def State.mapSector (f : Memory → Memory) (s : State) : State := s.setSector (f s.sector)

/-- ECCP (R137). -/
def execEccp (za : Bool) (s : State) : Host.Outcome State Fault Refusal :=
  .next (s.runCommand (.eccp za) (State.mapSector (Memory.withZeroAddress za (Memory.eccBlock paramsP))))

/-- ECCQ (R138). -/
def execEccq (za : Bool) (s : State) : Host.Outcome State Fault Refusal :=
  .next (s.runCommand (.eccq za) (State.mapSector (Memory.withZeroAddress za (Memory.eccBlock paramsQ))))

/-- ECCPQ (R139). -/
def execEccpq (za : Bool) (s : State) : Host.Outcome State Fault Refusal :=
  .next (s.runCommand (.eccpq za) (State.mapSector (Memory.withZeroAddress za Memory.eccPQ)))

end Sys2Proof.Machine
end

