-- ==== Sys2Proof/Machine/Edc.lean ====
section
/-! DEFINITION. The EDC unit and the EDC command (spec/40_edc.md). -/

namespace Sys2Proof.Machine

/-- One byte of the loop of R111: `(edc >> 8) XOR EDC_LUT[(edc XOR zext_32(b))[7:0]]`. -/
def edcStep (edc : Word) (b : Byte) : Word :=
  (edc >>> 8) ^^^ edcLut ((edc ^^^ b.setWidth 32).extractLsb' 0 8)

/-- The EDC of a byte sequence: initial value 0, lowest offset first, no final inversion (R111). -/
def edcOfBytes (bs : List Byte) : Word := bs.foldl edcStep 0#32

/-- `EdcCompute(start, n)` (R111). -/
def edcCompute (m : Memory) (start n : Nat) : Word := edcOfBytes (m.readBytes start n)

/-- `REG.EDC_VALUE <- EdcStore(start, n, dst)`: every source byte is read before any byte is stored (R112). -/
def State.edcStore (r : EdcRegion) (s : State) : State :=
  let v := edcCompute s.sector r.start r.len
  (s.setSector (s.sector.storeLE32 r.dst v)).setEdcValue v

/-- EDC (R114): rejected with EDC_RANGE unless the operands pass the check of R182, which is made at acceptance. -/
def execEdc (s : State) : Host.Outcome State Fault Refusal :=
  if s.edcRegion.inRange then
    .next (s.runCommand .edc (fun t => t.edcStore t.edcRegion))
  else
    .next (s.reject .edcRange)

end Sys2Proof.Machine
end

