-- ==== Sys2Proof/Machine/LayoutMux.lean ====
section
/-! DEFINITION. The sector layout multiplexer and the commands NOP and GEN (spec/42_layout.md). -/

namespace Sys2Proof.Machine

/-- `eccedcGenerate` for the selection `l`, in the required order: EDC store, zero-pad, P, Q (R160, R168). -/
def State.generate (l : Layout) (s : State) : State :=
  let s1 := match l.edc with
    | some r => s.edcStore r
    | none => s
  let s2 := if l.zeroPad then s1.mapSector (·.writeBytes zeroPadOffset (List.replicate zeroPadLength 0#8)) else s1
  match l.ecc with
  | some za => s2.mapSector (Memory.withZeroAddress za Memory.eccPQ)
  | none => s2

/-- NOP (R161): the sequencer enters `EXEC(NOP)` and leaves it at once. -/
def execNop (s : State) : Host.Outcome State Fault Refusal := .next (s.runCommand .nop id)

/-- GEN.T0 (R162). -/
def execGenT0 (s : State) : Host.Outcome State Fault Refusal := .next (s.runCommand .genT0 (State.generate layoutT0))

/-- GEN.T1, Mode 1 (R163). -/
def execGenT1 (s : State) : Host.Outcome State Fault Refusal := .next (s.runCommand .genT1 (State.generate layoutT1))

/-- GEN.T2, Mode 2 Form 1 (R164). -/
def execGenT2 (s : State) : Host.Outcome State Fault Refusal := .next (s.runCommand .genT2 (State.generate layoutT2))

/-- GEN.T3, Mode 2 Form 2 (R165). -/
def execGenT3 (s : State) : Host.Outcome State Fault Refusal := .next (s.runCommand .genT3 (State.generate layoutT3))

end Sys2Proof.Machine
end

