-- ==== Sys2Proof/Machine/Dispatch.lean ====
section
/-! DEFINITION. One arm per command: `exec` calls the command's meaning. -/

namespace Sys2Proof.Machine

def exec (i : Instr) (s : State) : Host.Outcome State Fault Refusal :=
  match i with
  | .nop => Sys2Proof.Machine.execNop s
  | .genT0 => Sys2Proof.Machine.execGenT0 s
  | .genT1 => Sys2Proof.Machine.execGenT1 s
  | .genT2 => Sys2Proof.Machine.execGenT2 s
  | .genT3 => Sys2Proof.Machine.execGenT3 s
  | .edc => Sys2Proof.Machine.execEdc s
  | .eccp za => Sys2Proof.Machine.execEccp za s
  | .eccq za => Sys2Proof.Machine.execEccq za s
  | .eccpq za => Sys2Proof.Machine.execEccpq za s

end Sys2Proof.Machine
end

