-- ==== Sys2Proof/WellFormed.lean ====
section
/-! DEFINITION. What makes a command word well formed, one named check for each clause of R94, and what makes an
instruction well formed (nothing: its only operand is one bit, R91). -/

namespace Sys2Proof

/-- Every term of `Instr` is well formed: ZA is one bit and takes both values (R91, R93). -/
def Instr.wf : Instr → Bool
  | .nop => true
  | .genT0 => true
  | .genT1 => true
  | .genT2 => true
  | .genT3 => true
  | .edc => true
  | .eccp _ => true
  | .eccq _ => true
  | .eccpq _ => true

/-- RSVD, bits 31:7, is zero (R91, R94). -/
def reservedBitsZero (w : Word) : Bool := w.extractLsb' 7 25 == 0#25

/-- The opcode is one of 0x0 to 0x5 (R92, R94). -/
def opcodeAssigned (w : Word) : Bool := (w.extractLsb' 0 4).toNat < 6

/-- TYPE is zero for every opcode but GEN (R91, R94). -/
def typeOnlyForGen (w : Word) : Bool := w.extractLsb' 4 2 == 0#2 || w.extractLsb' 0 4 == 1#4

/-- ZA is zero for every opcode but ECCP, ECCQ and ECCPQ (R91, R94). -/
def zaOnlyForEcc (w : Word) : Bool :=
  !w.getLsbD 6 || (3 ≤ (w.extractLsb' 0 4).toNat && (w.extractLsb' 0 4).toNat ≤ 5)

/-- A command word is well formed when no clause of R94 makes it illegal. -/
def commandWordWf (w : Word) : Bool :=
  reservedBitsZero w && opcodeAssigned w && typeOnlyForGen w && zaOnlyForEcc w

end Sys2Proof
end

