-- ==== Sys2Proof/Decode.lean ====
section
/-! DEFINITION. The command word CMD32: its fields, the total decoder of R98, the encoder of R91 to R93, and the
match / mask table of R93. -/

namespace Sys2Proof

/-- Why a word is not one of the 12 legal ones (R94); to the host all four are ILLEGAL_CMD (R180). -/
inductive IllegalWord where
  /-- RSVD is not zero -/
  | reservedBits
  /-- OP is 0x6 to 0xF -/
  | reservedOpcode
  /-- TYPE is not zero and the opcode is not GEN -/
  | typeOutsideGen
  /-- ZA is 1 and the opcode is not ECCP, ECCQ or ECCPQ -/
  | zaOutsideEcc
deriving DecidableEq, Repr

/-- What decoding a word gives: a command, or a rejection that says why (R98: decoding is total). -/
inductive Decoded where
  | command (i : Instr)
  | illegal (why : IllegalWord)
deriving DecidableEq, Repr

/-- OP = CMD[3:0] (R91). -/
def fieldOp (w : Word) : BitVec 4 := w.extractLsb' 0 4

/-- TYPE = CMD[5:4] (R91). -/
def fieldType (w : Word) : BitVec 2 := w.extractLsb' 4 2

/-- ZA = CMD[6]; 1 means zeroAddress = true (R91). -/
def fieldZa (w : Word) : Bool := w.getLsbD 6

/-- RSVD = CMD[31:7] (R91). -/
def fieldRsvd (w : Word) : BitVec 25 := w.extractLsb' 7 25

/-- TYPE must be 0 for every opcode but GEN (R91). -/
def requireTypeZero (w : Word) (d : Decoded) : Decoded :=
  if fieldType w = 0#2 then d else .illegal .typeOutsideGen

/-- ZA must be 0 for every opcode but ECCP, ECCQ and ECCPQ (R91). -/
def requireZaZero (w : Word) (d : Decoded) : Decoded :=
  if fieldZa w then .illegal .zaOutsideEcc else d

/-- GEN's TYPE selects the behaviour of the layout multiplexer directly (R91, R160). -/
def genOfType (ty : BitVec 2) : Instr :=
  match ty.toNat with
  | 0 => .genT0
  | 1 => .genT1
  | 2 => .genT2
  | _ => .genT3

/-- The decoder of R98, row by row; every word it does not accept is illegal (R94). -/
def decode (w : Word) : Decoded :=
  if fieldRsvd w = 0#25 then
    match (fieldOp w).toNat with
    | 0 => requireTypeZero w (requireZaZero w (.command .nop))
    | 1 => requireZaZero w (.command (genOfType (fieldType w)))
    | 2 => requireTypeZero w (requireZaZero w (.command .edc))
    | 3 => requireTypeZero w (.command (.eccp (fieldZa w)))
    | 4 => requireTypeZero w (.command (.eccq (fieldZa w)))
    | 5 => requireTypeZero w (.command (.eccpq (fieldZa w)))
    | _ => .illegal .reservedOpcode
  else .illegal .reservedBits

/-- A CMD32 word from its fields, RSVD = 0 (R91). -/
def assemble (op : BitVec 4) (ty : BitVec 2) (za : Bool) : Word :=
  0#25 ++ (BitVec.ofBool za ++ (ty ++ op))

/-- The word of a command, from the opcode map of R92 and the table of R93. -/
def encode : Instr → Word
  | .nop => assemble 0x0#4 0#2 false
  | .genT0 => assemble 0x1#4 0#2 false
  | .genT1 => assemble 0x1#4 1#2 false
  | .genT2 => assemble 0x1#4 2#2 false
  | .genT3 => assemble 0x1#4 3#2 false
  | .edc => assemble 0x2#4 0#2 false
  | .eccp za => assemble 0x3#4 0#2 za
  | .eccq za => assemble 0x4#4 0#2 za
  | .eccpq za => assemble 0x5#4 0#2 za

/-- One row of the table of R93: a word is legal if and only if `(word & mask) = match` for some row. -/
structure OpcodeRow where
  mnemonic : String
  pattern  : Word
  mask     : Word
deriving DecidableEq, Repr

/-- The table of R93, as spec/opcode_table.json has it. -/
def opcodeTable : List OpcodeRow :=
  [ ⟨"NOP",    0x00000000#32, 0xFFFFFFFF#32⟩,
    ⟨"GEN.T0", 0x00000001#32, 0xFFFFFFFF#32⟩,
    ⟨"GEN.T1", 0x00000011#32, 0xFFFFFFFF#32⟩,
    ⟨"GEN.T2", 0x00000021#32, 0xFFFFFFFF#32⟩,
    ⟨"GEN.T3", 0x00000031#32, 0xFFFFFFFF#32⟩,
    ⟨"EDC",    0x00000002#32, 0xFFFFFFFF#32⟩,
    ⟨"ECCP",   0x00000003#32, 0xFFFFFFBF#32⟩,
    ⟨"ECCQ",   0x00000004#32, 0xFFFFFFBF#32⟩,
    ⟨"ECCPQ",  0x00000005#32, 0xFFFFFFBF#32⟩ ]

/-- The word matches the row (R93). -/
def OpcodeRow.accepts (r : OpcodeRow) (w : Word) : Bool := w &&& r.mask == r.pattern

/-- What the decoder reads from the `nbits` lowest bits of `w`, numbered as spec/opcode_table.json numbers them. A
command is one 32-bit word (R90), so a value that needs more than 32 bits is no command. -/
def decodeTableWord (nbits w : Nat) : Option Instr :=
  let v := w % 2 ^ nbits
  if v < 2 ^ 32 then
    match decode (BitVec.ofNat 32 v) with
    | .command i => some i
    | .illegal _ => none
  else none

end Sys2Proof
end

