-- ==== Sys2Proof/Machine/Port.lean ====
section
/-! DEFINITION. The host port (spec/20_memory.md): the block-offset map, which accesses get BUSERR, reads and writes of every
window, and how the host's accesses come to the port. -/

namespace Sys2Proof.Machine

/-! ### The block-offset map (R61) -/

/-- A control register, in the order of R25's table. -/
inductive Reg where
  | cmd
  | status
  | edcValue
  | edcSrc
  | edcLen
  | edcDst
  | edcPoly
  | gfPoly
deriving DecidableEq, Repr

/-- A window of the block-offset map (R61). -/
inductive Window where
  | sector
  | registers
  | edcLut
  | eccF
  | eccB
  /-- reads as zero, writes ignored -/
  | reserved
deriving DecidableEq, Repr

/-- The window an offset lies in: the table of R61. -/
def windowOf (off : Offset) : Window :=
  let o := off.toNat
  if o < 0x0930 then .sector
  else if o < 0x1000 then .reserved
  else if o < 0x1020 then .registers
  else if o < 0x2000 then .reserved
  else if o < 0x2400 then .edcLut
  else if o < 0x2500 then .eccF
  else if o < 0x2600 then .eccB
  else .reserved

/-- The register at an offset of the register window: 0x1000 + 4·k (R25). -/
def regOf (off : Offset) : Reg :=
  match (off.toNat - 0x1000) / 4 with
  | 0 => .cmd
  | 1 => .status
  | 2 => .edcValue
  | 3 => .edcSrc
  | 4 => .edcLen
  | 5 => .edcDst
  | 6 => .edcPoly
  | _ => .gfPoly

/-- Whether the port performs an access of this size at this offset; every other access gets BUSERR (R69). -/
def portAccepts (off : Offset) (size : Nat) : Bool :=
  if size = 4 then off.toNat % 4 == 0
  else if size = 1 then
    match windowOf off with
    | .sector => true
    | .eccF => true
    | .eccB => true
    | .registers => false
    | .edcLut => false
    | .reserved => false
  else false

/-- Whether the port performs the access, rather than give it BUSERR (R69). -/
def Access.accepted : Access → Bool
  | .read off size => portAccepts off size
  | .write off size _ => portAccepts off size

/-! ### Registers (R68) -/

/-- What a register reads as; a read has no side effect (R26 to R30, R70). -/
def State.readReg (s : State) : Reg → Word
  | .cmd => s.cmd
  | .status => s.status.toWord
  | .edcValue => s.edcValue
  | .edcSrc => s.edcSrc
  | .edcLen => s.edcLen
  | .edcDst => s.edcDst
  | .edcPoly => Config.edcPoly
  | .gfPoly => Config.gfPoly

/-- A register write as storage: the operand registers and CMD keep all 32 bits, the others ignore it (R26, R29, R30,
R66, R68). That a CMD write also starts a command is `commandWrite` in Machine/Step.lean. -/
def State.writeReg (s : State) (r : Reg) (v : Word) : State :=
  match r with
  | .cmd => s.setCmd v
  | .edcSrc => s.setEdcSrc v
  | .edcLen => s.setEdcLen v
  | .edcDst => s.setEdcDst v
  | .status => s
  | .edcValue => s
  | .edcPoly => s
  | .gfPoly => s

/-! ### Reads and writes of the windows -/

/-- The entry of a byte table at an offset from the table's start. -/
def tableByte (table : Byte → Byte) (o : Nat) : Byte := table (BitVec.ofNat 8 o)

/-- Four consecutive entries of a byte table, little-endian (R67). -/
def tableWord (table : Byte → Byte) (o : Nat) : Word :=
  leWord (tableByte table o) (tableByte table (o + 1)) (tableByte table (o + 2)) (tableByte table (o + 3))

/-- The value of an accepted 4-byte read (R65 to R68). -/
def State.readWord (s : State) (off : Offset) : Word :=
  match windowOf off with
  | .sector => s.sector.loadLE32 off.toNat
  | .registers => s.readReg (regOf off)
  | .edcLut => edcLut (BitVec.ofNat 8 ((off.toNat - 0x2000) / 4))
  | .eccF => tableWord eccF (off.toNat - 0x2400)
  | .eccB => tableWord eccB (off.toNat - 0x2500)
  | .reserved => 0#32

/-- The value of an accepted 1-byte read, before zero extension (R65, R67). The port accepts one in three windows only (R69). -/
def State.readByte (s : State) (off : Offset) : Byte :=
  match windowOf off with
  | .sector => s.sector.read off.toNat
  | .eccF => tableByte eccF (off.toNat - 0x2400)
  | .eccB => tableByte eccB (off.toNat - 0x2500)
  | .registers => 0#8
  | .edcLut => 0#8
  | .reserved => 0#8

/-- The value of an accepted read; a 1-byte read is zero-extended (R65, R67). -/
def State.readAt (s : State) (off : Offset) (size : Nat) : Word :=
  if size = 4 then s.readWord off else (s.readByte off).setWidth 32

/-- An accepted write as storage (R64, R66, R68). -/
def State.storeAt (s : State) (off : Offset) (size : Nat) (v : Word) : State :=
  match windowOf off with
  | .sector =>
    if size = 4 then s.setSector (s.sector.storeLE32 off.toNat v)
    else s.setSector (s.sector.write off.toNat (v.extractLsb' 0 8))
  | .registers => s.writeReg (regOf off) v
  | .edcLut => s
  | .eccF => s
  | .eccB => s
  | .reserved => s

/-- The offset of CMD (R25). -/
def cmdOffset : Offset := 0x1000#14

/-- The host gets a BUSERR; no other state changes (R69, R186). What the host does then is ON_BUSERR, OPEN. -/
def deliverBusErr (s : State) : Host.Outcome State Fault Refusal :=
  match Config.onBusErr s.responses.length with
  | .goesOn => .next (s.respond [.busErr])
  | .faults => .fault .busError

/-! ### How accesses come to the port -/

/-- The block offset of a platform address, if the block decodes the address (R60). -/
def blockOffset (addr : Nat) : Option Offset :=
  if Config.base ≤ addr ∧ addr < Config.base + Config.windowSize then some (BitVec.ofNat 14 (addr - Config.base)) else none

/-- The outside world adds an event: the host issues an access, or reset is asserted (R60, R210). -/
def State.issue (s : State) (e : HostEvent) : State := s.setPort (s.port ++ [e])

/-- The host reads `size` bytes at a platform address; an address outside the window does not reach the block (R60). -/
def State.issueRead (s : State) (addr size : Nat) : State :=
  match blockOffset addr with
  | some off => s.issue (.access (.read off size))
  | none => s

/-- The host writes at a platform address; an address outside the window does not reach the block (R60). -/
def State.issueWrite (s : State) (addr size : Nat) (v : Word) : State :=
  match blockOffset addr with
  | some off => s.issue (.access (.write off size v))
  | none => s

end Sys2Proof.Machine
end

