-- ==== Sys2Proof/Machine/Step.lean ====
section
/-! DEFINITION. One step of the machine: a reset, the end of INIT, or one access of the host, which for a write to CMD includes
the whole command (R181, R218). -/

namespace Sys2Proof.Machine

/-- A write of `w` to CMD (R181): the word is stored whether or not it is legal (R26), an illegal one is rejected with
ILLEGAL_CMD (R94), and a legal one is executed. -/
def commandWrite (w : Word) (s : State) : Host.Outcome State Fault Refusal :=
  match decode w with
  | .command i => exec i (s.setCmd w)
  | .illegal _ => .next ((s.setCmd w).reject .illegalCmd)

/-- One access at the port of an idle block (R60 to R70). A read changes no state but that it has its response (R70); a
write to CMD gets OKAY whatever follows (R181). -/
def performAccess (a : Access) (s : State) : Host.Outcome State Fault Refusal :=
  if a.accepted then
    match a with
    | .read off size => .next (s.respond [.data (s.readAt off size)])
    | .write off size v =>
      if off = cmdOffset then commandWrite v (s.respond [.okay])
      else .next ((s.storeAt off size v).respond [.okay])
  else deliverBusErr s

/-- What the block does when the next event is not a reset: INIT ends (R211); a command that is running completes (no run
rests there, R218); an idle block performs the next access, or waits for one (R213). -/
def State.advance (s : State) : Host.Outcome State Fault Refusal :=
  match s.seq with
  | .init => .next s.endInit
  | .exec c => exec c s
  | .idle =>
    match s.port with
    | .access a :: rest => performAccess a (s.setPort rest)
    | _ => .next s

/-- One step. Reset takes precedence over everything, in any sequencer state (R183, R210); with an access in
flight its outcome is undefined and the model gives no meaning (R210, D28). -/
def step (s : State) : Host.Outcome State Fault Refusal :=
  match s.port with
  | .reset :: rest => .next (s.setPort rest).assertReset
  | .resetDuring _ :: _ => .refused .accessInFlightAtReset
  | _ => s.advance

/-- The instruction in the lowest `nbits` bits of `w`, where the next step takes it from: a write of that word to CMD is the next
access at the port, and the block is idle, as it is once INIT has ended (R211, R212). Assumption log entry 1. -/
def State.withFetchWord (s : State) (nbits w : Nat) : State :=
  let word := BitVec.ofNat 32 (w % 2 ^ nbits)
  ((s.setStatus s.status.initialised).setSeq .idle).setPort (.access (.write cmdOffset 4 word) :: s.port)

end Sys2Proof.Machine
end

