-- ==== Sys2Proof/Machine/HostAsm.lean ====
section
/-! DEFINITION. The host assembly of the spec: one transaction a line (R96), and the pseudo-instructions (R97). -/

namespace Sys2Proof.Machine

/-- `wr8 off, v` (R96). -/
def wr8 (off : Offset) (v : Word) : HostEvent := .access (.write off 1 v)

/-- `wr32 off, v` (R96). -/
def wr32 (off : Offset) (v : Word) : HostEvent := .access (.write off 4 v)

/-- `rd8 off` (R96). -/
def rd8 (off : Offset) : HostEvent := .access (.read off 1)

/-- `rd32 off` (R96). -/
def rd32 (off : Offset) : HostEvent := .access (.read off 4)

/-- `cmdw v`: a raw word, legal or not (R96). -/
def cmdw (v : Word) : HostEvent := wr32 cmdOffset v

/-- `cmd MNEMONIC`: the command's word of R93, `MNEMONIC.ZA` with bit 6 set (R96). -/
def cmd (i : Instr) : HostEvent := cmdw (encode i)

/-- `fill off, n, v`: `wr32 off+4k, v` for k in 0..n/4-1 (R97). DESIGN CHOICE: where `off+4k` passes 0x3FFF, which R97 does not
speak of, the offset wraps to 0x0000; R97 asks that `off` and `n` be multiples of 4, and for others the line has n/4 writes, rounded
down. Assumption log entry 18. -/
def fill (off : Offset) (n : Nat) (v : Word) : List HostEvent :=
  (List.range (n / 4)).map (fun k => wr32 (off + BitVec.ofNat 14 (4 * k)) v)

/-- `sync`: the sync pattern 00 FF×10 00 at 0x000 to 0x00B (R97). -/
def sync : List HostEvent :=
  [wr32 0x000#14 0xFFFFFF00#32, wr32 0x004#14 0xFFFFFFFF#32, wr32 0x008#14 0x00FFFFFF#32]

/-- `hdr a0, a1, a2, m`: `wr32 0x00C, {m, a2, a1, a0}` (R97). -/
def hdr (a0 a1 a2 m : Byte) : HostEvent := wr32 0x00C#14 (leWord a0 a1 a2 m)

/-- `edcset s, n, d` (R97). -/
def edcset (s n d : Word) : List HostEvent := [wr32 0x100C#14 s, wr32 0x1010#14 n, wr32 0x1014#14 d]

/-- `wait`, a loop of `rd32 0x1004` that the host ends when it reads bit 0 as 0 (R97). The accesses of one such loop are
this list for the `reads` that the host happened to make (assumption log entry 5). -/
def waitLoop (reads : Nat) : List HostEvent := List.replicate reads (rd32 statusOffset)

end Sys2Proof.Machine
end

