-- ==== Sys2Proof/Safety.lean ====
section
/-! DEFINITION. What holds of every state between two steps (R27, R28, R32, R181), when a run has ended (R220), and when
it is safe. -/

namespace Sys2Proof.Machine

/-- STATUS is consistent (R27, R32, R180): BUSY says whether the sequencer is idle; DONE and ERR are never 1 together; BUSY = 1
implies DONE = 0 and ERR = 0; ERRCODE is 0 when ERR = 0 and is 1 or 2 otherwise. -/
def Status.Consistent (st : Status) (q : Sequencer) : Prop :=
  (st.busy = true ↔ q ≠ .idle) ∧
  (st.busy = true → st.done = false ∧ st.err = false) ∧
  ¬ (st.done = true ∧ st.err = true) ∧
  (st.err = false → st.errCode = 0#4) ∧
  (st.err = true → st.errCode = CommandError.illegalCmd.code ∨ st.errCode = CommandError.edcRange.code)

/-- STATUS and the sequencer describe the word in CMD (R26, R27, R180, R181): DONE says that a legal word ran, ERRCODE 1 that the word
is illegal, ERRCODE 2 that it is the EDC word; a command in EXEC was accepted; before the first command CMD and EDC_VALUE hold their reset values. -/
def State.DescribesCommand (s : State) : Prop :=
  (s.status.done = true → ∃ i, decode s.cmd = .command i) ∧
  (s.status.err = true → s.status.errCode = CommandError.illegalCmd.code → ∃ why, decode s.cmd = .illegal why) ∧
  (s.status.err = true → s.status.errCode = CommandError.edcRange.code → decode s.cmd = .command .edc) ∧
  (∀ c, s.seq = .exec c → decode s.cmd = .command c ∧ (c = .edc → s.edcRegion.inRange = true)) ∧
  ((∀ c, s.seq ≠ .exec c) → s.status.done = false → s.status.err = false → s.cmd = 0#32 ∧ s.edcValue = 0#32)

/-- What every reachable state meets: the buffer is in its stored form, STATUS is consistent, and STATUS describes CMD. -/
def State.Inv (s : State) : Prop :=
  s.sector.wf ∧ s.status.Consistent s.seq ∧ s.DescribesCommand

/-- A run has ended: every access has had its response and BUSY = 0 (R220). -/
def State.runEnded (s : State) : Bool := s.port.isEmpty && !s.status.busy

/-- The host's program has had no BUSERR, which a host program is to treat as its own fault (R186). -/
def State.noBusErr (s : State) : Bool := s.responses.all (· ≠ .busErr)

end Sys2Proof.Machine
end

