-- ==== Sys2Proof/Certificates/Slice0/Obligations.lean ====
section
/-! DEFINITION. The statements for the provers. Each docstring says which rule of spec/ it formalises. -/

namespace Sys2Proof.Machine

/-! ### Words the statements use -/

/-- From `s` to `t` a command has completed without error (R181), and no register but STATUS and EDC_VALUE has changed. -/
def State.completesAs (s t : State) : Prop :=
  t.status = ⟨false, true, false, 0#4⟩ ∧ t.seq = .idle ∧ t.cmd = s.cmd ∧ t.edcSrc = s.edcSrc ∧ t.edcLen = s.edcLen ∧
  t.edcDst = s.edcDst

/-- STATUS reads at the head of the queue, `k` of them, are answered with `v`, and everything behind them stays held (R71). -/
def State.pollsAnswered (s t : State) (k : Nat) (v : Word) : Prop :=
  t.port = s.port.drop k ∧ (∀ e ∈ s.port.take k, e = rd32 0x1004#14) ∧
  t.responses = s.responses ++ List.replicate k (.data v)

/-- The operands pass the check of R182, on unbounded integers. -/
def State.edcOperandsOk (s : State) : Prop :=
  s.edcSrc.toNat ≤ 2352 ∧ s.edcLen.toNat ≤ 2352 - s.edcSrc.toNat ∧ s.edcDst.toNat ≤ 2348

/-- The offsets to which a command stores, when it completes (R114, R133, R134, R163, R164, R165). EDC stores at the
destination that its operand registers give. -/
def storesTo (i : Instr) (s : State) (a : Nat) : Prop :=
  match i with
  | .nop => False
  | .genT0 => False
  | .genT1 => 0x810 ≤ a ∧ a < 0x930
  | .genT2 => 0x818 ≤ a ∧ a < 0x930
  | .genT3 => 0x92C ≤ a ∧ a < 0x930
  | .edc => s.edcOperandsOk ∧ s.edcRegion.dst ≤ a ∧ a < s.edcRegion.dst + 4
  | .eccp _ => 0x81C ≤ a ∧ a < 0x8C8
  | .eccq _ => 0x8C8 ≤ a ∧ a < 0x930
  | .eccpq _ => 0x81C ≤ a ∧ a < 0x930

/-- The parity fields of the set `p` in the buffer `out` are those of the columns of the buffer `src` (R131). -/
def parityOf (p : EccParams) (src out : Memory) : Prop :=
  ∀ major, major < p.majorCount →
    out.read (p.dst + major) = parity0 (src.eccColumn p major) ∧
    out.read (p.dst + p.majorCount + major) = parity1 (src.eccColumn p major)

/-- The buffer as a pass with zeroAddress `za` sees it: with `za` the bytes 0x00C to 0x00F are zero (R136). -/
def seenWith (za : Bool) (m m' : Memory) : Prop :=
  m'.wf ∧ ∀ a, m'.read a = if za = true ∧ 0x00C ≤ a ∧ a < 0x010 then 0x00#8 else m.read a

/-- The reserved offsets of R61, as its table gives their ranges. -/
def reservedOffset (off : Offset) : Prop :=
  (0x0930 ≤ off.toNat ∧ off.toNat ≤ 0x0FFF) ∨ (0x1020 ≤ off.toNat ∧ off.toNat ≤ 0x1FFF) ∨
  (0x2600 ≤ off.toNat ∧ off.toNat ≤ 0x3FFF)

/-- The sum in GF(2⁸), exclusive-or, of bytes (R132). -/
def gfSum (bs : List Byte) : Byte := bs.foldl (· ^^^ ·) 0#8

/-- `x·α^n` in GF(2⁸) (R34, R132). -/
def mulAlphaPow (n : Nat) (x : Byte) : Byte := Nat.repeat eccF n x

/-- The two parity-check equations of R132 for the data bytes `ts` and the parity bytes `p0` and `p1`. -/
def parityChecks (ts : List Byte) (p0 p1 : Byte) : Prop :=
  gfSum ts ^^^ p0 ^^^ p1 = 0#8 ∧
  gfSum (ts.mapIdx fun k t => mulAlphaPow (ts.length + 1 - k) t) ^^^ mulAlphaPow 1 p0 ^^^ p1 = 0#8

/-- The bit-serial CRC of R113(a): polynomial 0xD8018001, reflected, initial value 0, no final XOR. -/
def bitSerialEdc (bs : List Byte) : Word :=
  bs.foldl (fun edc b => Nat.repeat
    (fun v : Word => (v >>> 1) ^^^ (if v.getLsbD 0 then 0xD8018001#32 else 0#32)) 8 (edc ^^^ b.setWidth 32)) 0#32

/-- Every byte of the list is 0x00. -/
def allZeroBytes (bs : List Byte) : Prop := ∀ b ∈ bs, b = 0x00#8

/-- The bytewise exclusive-or of two buffers (R113(c), R141). -/
def xorOf (m m' m'' : Memory) : Prop := m.wf ∧ m'.wf ∧ m''.wf ∧ ∀ a, m''.read a = m.read a ^^^ m'.read a

end Sys2Proof.Machine

open Sys2Proof Sys2Proof.Machine

/-! ### Encoding (spec/30_encoding.md) -/

/-- A few words of the table of R93 decode to their commands, and a few illegal words to none. A sanity statement. -/
def Obligations.SampleWordsDecode : Prop :=
  decode 0x00000000#32 = .command .nop ∧ decode 0x00000001#32 = .command .genT0 ∧
  decode 0x00000011#32 = .command .genT1 ∧ decode 0x00000021#32 = .command .genT2 ∧
  decode 0x00000031#32 = .command .genT3 ∧ decode 0x00000002#32 = .command .edc ∧
  decode 0x00000003#32 = .command (.eccp false) ∧ decode 0x00000043#32 = .command (.eccp true) ∧
  decode 0x00000044#32 = .command (.eccq true) ∧ decode 0x00000045#32 = .command (.eccpq true) ∧
  decode 0x00000041#32 = .illegal .zaOutsideEcc ∧ decode 0x00000012#32 = .illegal .typeOutsideGen ∧
  decode 0x00000006#32 = .illegal .reservedOpcode ∧ decode 0x00000082#32 = .illegal .reservedBits

/-- Decoding and encoding are inverse in both directions, over all 2³² words (R91, R93, R98). -/
def Obligations.DecodeAndEncodeAreInverse : Prop :=
  ∀ (w : Word) (i : Instr), decode w = .command i ↔ w = encode i

/-- R93, R98: a word is a command if and only if a row of the table accepts it, no word matches two rows, and the legal words are
exactly the 12 of the table. -/
def Obligations.LegalIffExactlyOneTableRowMatches : Prop :=
  (∀ w : Word, (∃ i, decode w = .command i) ↔ ∃ r ∈ opcodeTable, w &&& r.mask = r.pattern) ∧
  (∀ w : Word, ∀ r ∈ opcodeTable, ∀ r' ∈ opcodeTable, w &&& r.mask = r.pattern → w &&& r'.mask = r'.pattern → r = r') ∧
  (∀ w : Word, (∃ i, decode w = .command i) ↔
    w ∈ [0x00#32, 0x01#32, 0x11#32, 0x21#32, 0x31#32, 0x02#32, 0x03#32, 0x43#32, 0x04#32, 0x44#32, 0x05#32, 0x45#32])

/-- R94: exactly the words with a reserved opcode, a nonzero RSVD, a nonzero TYPE outside GEN, or ZA = 1 outside the ECC commands
are illegal. -/
def Obligations.IllegalExactlyByTheFourClauses : Prop :=
  ∀ w : Word, (∃ why, decode w = .illegal why) ↔
    (w.extractLsb' 7 25 ≠ 0#25 ∨ 6 ≤ (w.extractLsb' 0 4).toNat ∨
     (w.extractLsb' 4 2 ≠ 0#2 ∧ w.extractLsb' 0 4 ≠ 1#4) ∨
     (w.getLsbD 6 = true ∧ ((w.extractLsb' 0 4).toNat < 3 ∨ 5 < (w.extractLsb' 0 4).toNat)))

/-! ### A step, command acceptance and errors (spec/60_exceptions.md) -/

/-- R68, R181: when an idle block performs a 4-byte write of a legal word to CMD, the step stores the word, responds OKAY and
is the meaning of the decoded command. -/
def Obligations.StepRunsTheCommandWritten : Prop :=
  ∀ (s : State) (w : Word) (i : Instr) (rest : List HostEvent),
    s.seq = .idle → s.port = cmdw w :: rest → decode w = .command i →
    step s = exec i { s with port := rest, responses := s.responses ++ [.okay], cmd := w }

/-- The model's own fetch (assumption log entry 1; no rule of the spec): with a word placed by `withFetchWord` the next step is the
meaning of the command it decodes to. -/
def Obligations.FetchedWordRunsNext : Prop :=
  ∀ (s : State) (w : Nat) (i : Instr), decodeTableWord 32 w = some i →
    step (s.withFetchWord 32 w) =
      exec i { s with
        status := { s.status with busy := false }, seq := .idle, responses := s.responses ++ [.okay]
        cmd := BitVec.ofNat 32 w }

/-- R184 with R181: a rejected command writes CMD with the word, clears DONE and the old error (R181, for every CMD write), sets
ERR = 1 and the code, and writes nothing else: ILLEGAL_CMD for an illegal word, EDC_RANGE for the EDC word with operands
that fail the check. -/
def Obligations.RejectedCommandWritesOnlyCmdAndError : Prop :=
  ∀ (s : State) (w : Word) (rest : List HostEvent), s.seq = .idle → s.status.busy = false → s.port = cmdw w :: rest →
    ((∃ why, decode w = .illegal why) →
      step s = .next { s with
        cmd := w, status := ⟨false, false, true, 1#4⟩, port := rest, responses := s.responses ++ [.okay] }) ∧
    (decode w = .command .edc → ¬ s.edcOperandsOk →
      step s = .next { s with
        cmd := w, status := ⟨false, false, true, 2#4⟩, port := rest, responses := s.responses ++ [.okay] })

/-- R185, R190: STATUS.DONE, ERR and ERRCODE keep their values over every step that is neither a reset, nor a write to CMD that
is performed, nor the completion of a command. -/
def Obligations.OutcomeKeptUntilNextCommandWrite : Prop :=
  ∀ s t : State, (∀ rest, s.port ≠ .reset :: rest) → (∀ c, s.seq ≠ .exec c) →
    (s.seq = .idle → ∀ w rest, s.port ≠ cmdw w :: rest) → step s = .next t →
    t.status.done = s.status.done ∧ t.status.err = s.status.err ∧ t.status.errCode = s.status.errCode

/-- R185: whatever word a CMD write carries, the outcome of the command before is forgotten: nothing of STATUS after the write
depends on DONE, ERR and ERRCODE before it. -/
def Obligations.CommandWriteForgetsTheOldOutcome : Prop :=
  ∀ (s t t' : State) (w : Word) (rest : List HostEvent) (d e : Bool) (c : BitVec 4),
    s.seq = .idle → s.port = cmdw w :: rest → step s = .next t →
    step { s with status := { s.status with done := d, err := e, errCode := c } } = .next t' →
    t.status = t'.status

/-- R182: the EDC command is rejected exactly when one of the three comparisons fails, with no 32-bit wrap, and completes
otherwise. -/
def Obligations.EdcRejectedExactlyOutOfRange : Prop :=
  ∀ s : State,
    (s.edcOperandsOk → ∃ t, exec .edc s = .next t ∧ t.status = ⟨false, true, false, 0#4⟩) ∧
    (¬ s.edcOperandsOk → ∃ t, exec .edc s = .next t ∧ t.status = ⟨s.status.busy, false, true, 2#4⟩)

/-- R180: every command ends, in every state, and its STATUS word then reads 0x02 or, for an EDC rejected on an idle block,
0x24. -/
def Obligations.EveryCommandEndsDoneOrRejected : Prop :=
  ∀ (i : Instr) (s : State), s.status.busy = false → ∃ t, exec i s = .next t ∧
    ((t.status.toWord = 0x00000002#32 ∧ t.seq = .idle ∧ (i = .edc → s.edcOperandsOk)) ∨
     (t.status.toWord = 0x00000024#32 ∧ t.seq = s.seq ∧ i = .edc ∧ ¬ s.edcOperandsOk))

/-! ### NOP and GEN (spec/42_layout.md) -/

/-- R161: NOP is the word 0 and no other word with OP = 0; it completes in every state with STATUS = 0x02 and changes nothing in the
buffer, EDC_VALUE or the EDC operand registers. -/
def Obligations.NopCompletesAndChangesNothing : Prop :=
  decode 0x00000000#32 = .command .nop ∧
  (∀ w : Word, w.extractLsb' 0 4 = 0#4 → w ≠ 0#32 → ∃ why, decode w = .illegal why) ∧
  ∀ s : State, ∃ t, exec .nop s = .next t ∧ s.completesAs t ∧ t.status.toWord = 0x00000002#32 ∧
    t.sector = s.sector ∧ t.edcValue = s.edcValue

/-- R162: GEN.T0 is the word 1; it completes in every state with STATUS = 0x02 and changes nothing else. -/
def Obligations.GenT0CompletesAndChangesNothing : Prop :=
  decode 0x00000001#32 = .command .genT0 ∧
  ∀ s : State, ∃ t, exec .genT0 s = .next t ∧ s.completesAs t ∧ t.status.toWord = 0x00000002#32 ∧
    t.sector = s.sector ∧ t.edcValue = s.edcValue

/-- R163: GEN.T1 completes; EDC_VALUE is the EDC of 0x000 to 0x80F and stands at 0x810; the zero-pad is zero; P and Q are the parity
of the buffer as it ends; nothing below 0x810 changes. -/
def Obligations.GenT1WritesEdcPadAndParity : Prop :=
  ∀ s : State, s.sector.wf → ∃ t, exec .genT1 s = .next t ∧ s.completesAs t ∧
    t.edcValue = edcCompute s.sector 0x000 0x810 ∧ t.sector.loadLE32 0x810 = t.edcValue ∧
    (∀ a, 0x814 ≤ a → a < 0x81C → t.sector.read a = 0x00#8) ∧
    parityOf paramsP t.sector t.sector ∧ parityOf paramsQ t.sector t.sector ∧
    (∀ a, a < 0x810 ∨ 0x930 ≤ a → t.sector.read a = s.sector.read a)

/-- R164: GEN.T2 completes; EDC_VALUE is the EDC of 0x010 to 0x817 and stands at 0x818; P and Q are the parity of the buffer as it ends
with the bytes 0x00C to 0x00F taken as zero; nothing below 0x818 changes, those four bytes among them. -/
def Obligations.GenT2WritesEdcAndZeroAddressParity : Prop :=
  ∀ s : State, s.sector.wf → ∃ t, exec .genT2 s = .next t ∧ s.completesAs t ∧
    t.edcValue = edcCompute s.sector 0x010 0x808 ∧ t.sector.loadLE32 0x818 = t.edcValue ∧
    (∀ m, seenWith true t.sector m → parityOf paramsP m t.sector ∧ parityOf paramsQ m t.sector) ∧
    (∀ a, a < 0x818 ∨ 0x930 ≤ a → t.sector.read a = s.sector.read a)

/-- R165: GEN.T3 completes; EDC_VALUE is the EDC of 0x010 to 0x92B and stands at 0x92C; no other byte changes. -/
def Obligations.GenT3WritesOnlyTheEdc : Prop :=
  ∀ s : State, s.sector.wf → ∃ t, exec .genT3 s = .next t ∧ s.completesAs t ∧
    t.edcValue = edcCompute s.sector 0x010 0x91C ∧ t.sector.loadLE32 0x92C = t.edcValue ∧
    (∀ a, a < 0x92C ∨ 0x930 ≤ a → t.sector.read a = s.sector.read a)

/-- R115: after GEN.Tt the EDC of the region extended by its destination is 0. -/
def Obligations.GenLeavesZeroResidue : Prop :=
  ∀ s t : State, s.sector.wf →
    (exec .genT1 s = .next t → edcCompute t.sector 0x000 0x814 = 0#32) ∧
    (exec .genT2 s = .next t → edcCompute t.sector 0x010 0x80C = 0#32) ∧
    (exec .genT3 s = .next t → edcCompute t.sector 0x010 0x920 = 0#32)

/-- R167: the outputs of each GEN command depend on its input set only, as it stood when the command began. -/
def Obligations.GenOutputsDependOnInputSetOnly : Prop :=
  ∀ s s' t t' : State, s.sector.wf → s'.sector.wf →
    ((∀ a, a < 0x810 → s.sector.read a = s'.sector.read a) → exec .genT1 s = .next t → exec .genT1 s' = .next t' →
      t.edcValue = t'.edcValue ∧ ∀ a, 0x810 ≤ a → a < 0x930 → t.sector.read a = t'.sector.read a) ∧
    ((∀ a, 0x010 ≤ a → a < 0x818 → s.sector.read a = s'.sector.read a) → exec .genT2 s = .next t →
      exec .genT2 s' = .next t' →
      t.edcValue = t'.edcValue ∧ ∀ a, 0x818 ≤ a → a < 0x930 → t.sector.read a = t'.sector.read a) ∧
    ((∀ a, 0x010 ≤ a → a < 0x92C → s.sector.read a = s'.sector.read a) → exec .genT3 s = .next t →
      exec .genT3 s' = .next t' →
      t.edcValue = t'.edcValue ∧ ∀ a, 0x92C ≤ a → a < 0x930 → t.sector.read a = t'.sector.read a)

/-- R70 (and R163): GEN.T1, GEN.T2 and GEN.T3, run again on the buffer they left, leave the same buffer and the same EDC_VALUE. -/
def Obligations.GenTwiceIsGenOnce : Prop :=
  ∀ (i : Instr) (s t u : State), i = .genT1 ∨ i = .genT2 ∨ i = .genT3 → s.sector.wf →
    exec i s = .next t → exec i t = .next u → u.sector = t.sector ∧ u.edcValue = t.edcValue

/-! ### The EDC unit (spec/40_edc.md) -/

/-- R112, R114: an EDC command whose operands pass the check completes; EDC_VALUE is the EDC of the region as it stood when the command
began, stored little-endian at EDC_DST even where the destination lies inside the region, and no other byte changes. -/
def Obligations.EdcStoresTheEdcOfTheOldRegion : Prop :=
  ∀ s : State, s.sector.wf → s.edcOperandsOk → ∃ t, exec .edc s = .next t ∧ s.completesAs t ∧
    t.edcValue = edcCompute s.sector s.edcSrc.toNat s.edcLen.toNat ∧
    (∀ k, k < 4 → t.sector.read (s.edcDst.toNat + k) = t.edcValue.extractLsb' (8 * k) 8) ∧
    (∀ a, a < s.edcDst.toNat ∨ s.edcDst.toNat + 4 ≤ a → t.sector.read a = s.sector.read a)

/-- R113(a): the table form of the EDC is the bit-serial reflected CRC. -/
def Obligations.EdcEqualsBitSerialCrc : Prop := ∀ bs : List Byte, edcOfBytes bs = bitSerialEdc bs

/-- R113(b), (e): a region of zeros gives 0, and one byte gives its table entry. -/
def Obligations.EdcOfZerosAndOfOneByte : Prop :=
  (∀ bs : List Byte, allZeroBytes bs → edcOfBytes bs = 0#32) ∧ ∀ b : Byte, edcOfBytes [b] = edcLut b

/-- R113(c): for two regions of equal length the EDC of their bytewise XOR is the XOR of their EDCs. -/
def Obligations.EdcIsLinear : Prop :=
  ∀ xs ys : List Byte, xs.length = ys.length →
    edcOfBytes (List.zipWith (· ^^^ ·) xs ys) = edcOfBytes xs ^^^ edcOfBytes ys

/-- R113(d): a region followed by its own EDC, little-endian, has EDC 0. -/
def Obligations.EdcResidueIsZero : Prop := ∀ bs : List Byte, edcOfBytes (bs ++ leBytes (edcOfBytes bs)) = 0#32

/-! ### The parity encoders (spec/41_ecc.md) -/

/-- R133, R137: ECCP completes for either ZA; P is the parity of the columns of the buffer, with ZA = 1 of the buffer with the
four address bytes zero; no other byte changes and EDC_VALUE is unchanged. -/
def Obligations.EccpWritesTheColumnParities : Prop :=
  ∀ (za : Bool) (s : State), s.sector.wf → ∃ t, exec (.eccp za) s = .next t ∧ s.completesAs t ∧ t.edcValue = s.edcValue ∧
    (∀ m, seenWith za s.sector m → parityOf paramsP m t.sector) ∧
    (∀ a, a < 0x81C ∨ 0x8C8 ≤ a → t.sector.read a = s.sector.read a)

/-- R134, R138: ECCQ completes for either ZA; Q is the parity of the columns of the buffer, the P bytes as they stand among them;
no other byte changes and EDC_VALUE is unchanged. -/
def Obligations.EccqWritesTheColumnParities : Prop :=
  ∀ (za : Bool) (s : State), s.sector.wf → ∃ t, exec (.eccq za) s = .next t ∧ s.completesAs t ∧ t.edcValue = s.edcValue ∧
    (∀ m, seenWith za s.sector m → parityOf paramsQ m t.sector) ∧
    (∀ a, a < 0x8C8 ∨ 0x930 ≤ a → t.sector.read a = s.sector.read a)

/-- R139: ECCPQ completes for either ZA; P and Q are the parity of the buffer as it ends, so Q reads the new P; no other byte
changes and EDC_VALUE is unchanged. -/
def Obligations.EccpqWritesPThenQ : Prop :=
  ∀ (za : Bool) (s : State), s.sector.wf → ∃ t, exec (.eccpq za) s = .next t ∧ s.completesAs t ∧ t.edcValue = s.edcValue ∧
    (∀ m, seenWith za t.sector m → parityOf paramsP m t.sector ∧ parityOf paramsQ m t.sector) ∧
    (∀ a, a < 0x81C ∨ 0x930 ≤ a → t.sector.read a = s.sector.read a)

/-- R139: ECCPQ leaves the buffer that ECCP followed by ECCQ, with the same ZA, leaves. -/
def Obligations.EccpqIsEccpThenEccq : Prop :=
  ∀ (za : Bool) (s t u v : State), s.sector.wf → exec (.eccpq za) s = .next t → exec (.eccp za) s = .next u →
    exec (.eccq za) u = .next v → t.sector = v.sector

/-- R136: an ECC command with ZA = 1 leaves the bytes 0x00C to 0x00F as they were, and every other byte as the same command with
ZA = 0 leaves it on a buffer whose four address bytes are zero. -/
def Obligations.ZeroAddressIsAsIfZeroAndRestored : Prop :=
  ∀ (s s' t t' : State), s.sector.wf → seenWith true s.sector s'.sector →
    (∀ c : Bool → Instr, c = .eccp ∨ c = .eccq ∨ c = .eccpq →
      exec (c true) s = .next t → exec (c false) s' = .next t' →
      (∀ a, 0x00C ≤ a → a < 0x010 → t.sector.read a = s.sector.read a) ∧
      (∀ a, a < 0x00C ∨ 0x010 ≤ a → t.sector.read a = t'.sector.read a))

/-- R132: for every column of either pass the bytes it reads and the two parity bytes it leaves satisfy the two parity-check
equations in GF(2⁸); after the loop `eccA` is Σ t_k·α^(n−k) and `eccB` is Σ t_k. -/
def Obligations.ParityBytesSatisfyTheChecks : Prop :=
  (∀ ts : List Byte,
    (eccAccumulate ts).a = gfSum (ts.mapIdx fun k t => mulAlphaPow (ts.length - k) t) ∧ (eccAccumulate ts).b = gfSum ts) ∧
  ∀ (p : EccParams) (m : Memory), p = paramsP ∨ p = paramsQ → m.wf → ∀ major, major < p.majorCount →
    parityChecks (m.eccColumn p major) ((m.eccBlock p).read (p.dst + major))
      ((m.eccBlock p).read (p.dst + major + p.majorCount))

/-- R142: the two parity bytes of a column are the unique solution of the two equations. -/
def Obligations.ParityBytesAreTheUniqueSolution : Prop :=
  ∀ (ts : List Byte) (p0 p1 : Byte), parityChecks ts p0 p1 → p0 = parity0 ts ∧ p1 = parity1 ts

/-- R141: each pass is linear: the parity of the XOR of two buffers is the XOR of their parities. -/
def Obligations.ParityIsLinear : Prop :=
  ∀ (p : EccParams) (m m' m'' : Memory), p = paramsP ∨ p = paramsQ → xorOf m m' m'' →
    ∀ a, p.dst ≤ a → a < p.dst + 2 * p.majorCount →
      (m''.eccBlock p).read a = (m.eccBlock p).read a ^^^ (m'.eccBlock p).read a

/-- R133, R134: the source indices of column m: m + 86·k for P, and ((m >> 1)·86 + (m & 1) + 88·k) mod 2236 for Q. -/
def Obligations.ColumnIndicesInClosedForm : Prop :=
  (∀ m, m < 86 → paramsP.columnIndices m = (List.range 24).map (fun k => m + 86 * k)) ∧
  (∀ m, m < 52 →
    paramsQ.columnIndices m = (List.range 43).map (fun k => ((m >>> 1) * 86 + (m &&& 1) + 88 * k) % 2236))

/-- R133, R134: over all columns the P pass reads every offset 0x00C to 0x81B exactly once, the Q pass every offset 0x00C to
0x8C7 exactly once, and neither reads any other. -/
def Obligations.EachPassReadsEverySourceByteOnce : Prop :=
  (((List.range 86).flatMap paramsP.columnIndices).map (eccSrc + ·)).Perm (List.range' 0x00C 2064) ∧
  (((List.range 52).flatMap paramsQ.columnIndices).map (eccSrc + ·)).Perm (List.range' 0x00C 2236)

/-- R135: the Q parity bytes before a pass have no effect on any output of an ECC command; for ECCP nothing from 0x81C on has. -/
def Obligations.OldParityBytesHaveNoEffect : Prop :=
  ∀ (za : Bool) (s s' t t' : State), s.sector.wf → s'.sector.wf →
    ((∀ a, a < 0x81C → s.sector.read a = s'.sector.read a) → exec (.eccp za) s = .next t → exec (.eccp za) s' = .next t' →
      ∀ a, 0x81C ≤ a → a < 0x8C8 → t.sector.read a = t'.sector.read a) ∧
    ((∀ a, a < 0x8C8 → s.sector.read a = s'.sector.read a) → exec (.eccq za) s = .next t → exec (.eccq za) s' = .next t' →
      ∀ a, 0x8C8 ≤ a → a < 0x930 → t.sector.read a = t'.sector.read a) ∧
    ((∀ a, a < 0x81C → s.sector.read a = s'.sector.read a) → exec (.eccpq za) s = .next t →
      exec (.eccpq za) s' = .next t' → ∀ a, 0x81C ≤ a → a < 0x930 → t.sector.read a = t'.sector.read a)

/-! ### Frames -/

/-- R28, R29: over every command CMD and the operand registers are unchanged, and EDC_VALUE is unchanged unless the command is EDC,
GEN.T1, GEN.T2 or GEN.T3 and completed. -/
def Obligations.CommandsWriteNoOtherRegister : Prop :=
  ∀ (i : Instr) (s t : State), exec i s = .next t →
    t.cmd = s.cmd ∧ t.edcSrc = s.edcSrc ∧ t.edcLen = s.edcLen ∧ t.edcDst = s.edcDst ∧
    ((i ≠ .edc ∧ i ≠ .genT1 ∧ i ≠ .genT2 ∧ i ≠ .genT3) ∨ t.status.err = true → t.edcValue = s.edcValue)

/-- The frame of every command in memory: each byte outside the command's destination reads as before (R114, R137 to R139,
R161 to R165). -/
def Obligations.CommandsStoreOnlyToTheirDestination : Prop :=
  ∀ (i : Instr) (s t : State), s.sector.wf → exec i s = .next t →
    ∀ a, ¬ storesTo i s a → t.sector.read a = s.sector.read a

/-- R24: a byte of the buffer keeps its value over every step but a reset, unless the step performs, on an idle block, an accepted
write of the host that covers the byte, or runs a command that stores to it. -/
def Obligations.BytesKeepTheirValueUnlessWritten : Prop :=
  ∀ (s t : State) (a : Nat), s.Inv → (∀ rest, s.port ≠ .reset :: rest) → step s = .next t →
    t.sector.read a ≠ s.sector.read a →
    (s.seq = .idle ∧ ∃ off v rest, s.port = wr8 off v :: rest ∧ a = off.toNat ∧ off.toNat < 0x930) ∨
    (s.seq = .idle ∧ ∃ off v rest, s.port = wr32 off v :: rest ∧ off.toNat % 4 = 0 ∧ off.toNat ≤ a ∧ a < off.toNat + 4 ∧
      off.toNat < 0x930) ∨
    (∃ i, storesTo i s a ∧
      (s.seq = .exec i ∨ (s.seq = .idle ∧ ∃ w rest, s.port = cmdw w :: rest ∧ decode w = .command i)))

/-! ### The host port (spec/20_memory.md) -/

/-- R64: a write to the sector window stores its byte, or its four bytes little-endian, and no other byte; the response is OKAY. -/
def Obligations.SectorWriteStoresItsBytes : Prop :=
  ∀ (s : State) (off : Offset) (v : Word) (rest : List HostEvent), s.seq = .idle → s.sector.wf →
    (s.port = wr8 off v :: rest → off.toNat ≤ 0x92F →
      ∃ m, step s = .next { s with sector := m, port := rest, responses := s.responses ++ [.okay] } ∧
        ∀ a, m.read a = if a = off.toNat then v.extractLsb' 0 8 else s.sector.read a) ∧
    (s.port = wr32 off v :: rest → off.toNat % 4 = 0 → off.toNat ≤ 0x92C →
      ∃ m, step s = .next { s with sector := m, port := rest, responses := s.responses ++ [.okay] } ∧
        (∀ k, k < 4 → m.read (off.toNat + k) = v.extractLsb' (8 * k) 8) ∧
        ∀ a, a < off.toNat ∨ off.toNat + 4 ≤ a → m.read a = s.sector.read a)

/-- R65: a read of the sector window returns the byte, zero-extended, or four bytes little-endian, with no side effect. -/
def Obligations.SectorReadReturnsItsBytes : Prop :=
  ∀ (s : State) (off : Offset) (rest : List HostEvent), s.seq = .idle →
    (s.port = rd8 off :: rest → off.toNat ≤ 0x92F →
      step s = .next { s with
        port := rest, responses := s.responses ++ [.data ((s.sector.read off.toNat).setWidth 32)] }) ∧
    (s.port = rd32 off :: rest → off.toNat % 4 = 0 → off.toNat ≤ 0x92C →
      step s = .next { s with
        port := rest
        responses := s.responses ++ [.data (s.sector.read (off.toNat + 3) ++ s.sector.read (off.toNat + 2) ++
          s.sector.read (off.toNat + 1) ++ s.sector.read off.toNat)] })

/-- R62, R72: what a 4-byte write puts into the sector window the next 4-byte read of the same offset returns. -/
def Obligations.SectorWordReadsBackAsWritten : Prop :=
  ∀ (s t u : State) (off : Offset) (v : Word) (rest : List HostEvent), s.seq = .idle → s.sector.wf →
    s.port = wr32 off v :: rd32 off :: rest → off.toNat % 4 = 0 → off.toNat ≤ 0x92C →
    step s = .next t → step t = .next u → u.responses = s.responses ++ [.okay, .data v]

/-- R66, with the reserved ranges of R61: a write to a read-only location or a 4-byte write to a reserved offset is ignored with
response OKAY, and a 4-byte read of a reserved offset returns 0. -/
def Obligations.ReadOnlyAndReservedIgnoreWrites : Prop :=
  ∀ (s : State) (off : Offset) (v : Word) (rest : List HostEvent), s.seq = .idle →
    (s.port = wr32 off v :: rest → off.toNat % 4 = 0 →
      (off ∈ [0x1004#14, 0x1008#14, 0x1018#14, 0x101C#14] ∨ (0x2000 ≤ off.toNat ∧ off.toNat < 0x2600) ∨
        reservedOffset off) →
      step s = .next { s with port := rest, responses := s.responses ++ [.okay] }) ∧
    (s.port = wr8 off v :: rest → 0x2400 ≤ off.toNat → off.toNat < 0x2600 →
      step s = .next { s with port := rest, responses := s.responses ++ [.okay] }) ∧
    (s.port = rd32 off :: rest → off.toNat % 4 = 0 → reservedOffset off →
      step s = .next { s with port := rest, responses := s.responses ++ [.data 0x00000000#32] })

/-- R67: a read of a table window returns the entry, or four consecutive entries little-endian, with no side effect. -/
def Obligations.TableWindowsReadTheTables : Prop :=
  ∀ (s : State) (i : Byte) (rest : List HostEvent), s.seq = .idle →
    (s.port = rd32 (0x2000#14 + BitVec.ofNat 14 (4 * i.toNat)) :: rest →
      step s = .next { s with port := rest, responses := s.responses ++ [.data (edcLut i)] }) ∧
    (s.port = rd8 (0x2400#14 + i.setWidth 14) :: rest →
      step s = .next { s with port := rest, responses := s.responses ++ [.data ((eccF i).setWidth 32)] }) ∧
    (s.port = rd8 (0x2500#14 + i.setWidth 14) :: rest →
      step s = .next { s with port := rest, responses := s.responses ++ [.data ((eccB i).setWidth 32)] }) ∧
    (s.port = rd32 (0x2400#14 + i.setWidth 14) :: rest → i.toNat % 4 = 0 →
      step s = .next { s with
        port := rest
        responses := s.responses ++ [.data (eccF (i + 3) ++ eccF (i + 2) ++ eccF (i + 1) ++ eccF i)] }) ∧
    (s.port = rd32 (0x2500#14 + i.setWidth 14) :: rest → i.toNat % 4 = 0 →
      step s = .next { s with
        port := rest
        responses := s.responses ++ [.data (eccB (i + 3) ++ eccB (i + 2) ++ eccB (i + 1) ++ eccB i)] })

/-- R26 to R30, R68: a 4-byte read of each control register returns the value its rule gives, with no side effect. -/
def Obligations.RegisterReadsReturnTheRegisters : Prop :=
  ∀ (s : State) (rest : List HostEvent) (off : Offset) (v : Word), s.seq = .idle → s.port = rd32 off :: rest →
    (off, v) ∈ [(0x1000#14, s.cmd), (0x1004#14, s.status.toWord), (0x1008#14, s.edcValue), (0x100C#14, s.edcSrc),
      (0x1010#14, s.edcLen), (0x1014#14, s.edcDst), (0x1018#14, 0xD8018001#32), (0x101C#14, 0x0000011D#32)] →
    step s = .next { s with port := rest, responses := s.responses ++ [.data v] }

/-- R29, R68: a 4-byte write to EDC_SRC, EDC_LEN or EDC_DST stores all 32 bits, unchecked, and nothing else. -/
def Obligations.OperandRegistersStoreAllBits : Prop :=
  ∀ (s : State) (v : Word) (rest : List HostEvent), s.seq = .idle →
    (s.port = wr32 0x100C#14 v :: rest →
      step s = .next { s with edcSrc := v, port := rest, responses := s.responses ++ [.okay] }) ∧
    (s.port = wr32 0x1010#14 v :: rest →
      step s = .next { s with edcLen := v, port := rest, responses := s.responses ++ [.okay] }) ∧
    (s.port = wr32 0x1014#14 v :: rest →
      step s = .next { s with edcDst := v, port := rest, responses := s.responses ++ [.okay] })

/-- R30: EDC_POLY always reads 0xD8018001 and GF_POLY 0x0000011D, and writes to them are ignored. -/
def Obligations.PolynomialRegistersAreConstant : Prop :=
  ∀ (s : State) (v : Word) (rest : List HostEvent), s.seq = .idle →
    (s.port = rd32 0x1018#14 :: rest →
      step s = .next { s with port := rest, responses := s.responses ++ [.data 0xD8018001#32] }) ∧
    (s.port = rd32 0x101C#14 :: rest →
      step s = .next { s with port := rest, responses := s.responses ++ [.data 0x0000011D#32] }) ∧
    (s.port = wr32 0x1018#14 v :: rest ∨ s.port = wr32 0x101C#14 v :: rest →
      step s = .next { s with port := rest, responses := s.responses ++ [.okay] })

/-- R69, R186: BUSERR goes to exactly the misaligned 4-byte accesses, the 1-byte accesses outside SECTOR, ECC_F and ECC_B, and the
other sizes. Such an access changes no state but that it has its response; whether the host's program goes on is
ON_BUSERR, open (assumption log entry 3). -/
def Obligations.BusErrExactlyOnUnsupportedAccesses : Prop :=
  ∀ (s : State) (off : Offset) (size : Nat) (v : Word) (a : Access) (rest : List HostEvent), s.seq = .idle →
    a = .read off size ∨ a = .write off size v → s.port = .access a :: rest →
    let unsupported := (size = 4 ∧ off.toNat % 4 ≠ 0) ∨
      (size = 1 ∧ ¬ (off.toNat < 0x930 ∨ (0x2400 ≤ off.toNat ∧ off.toNat < 0x2600))) ∨ (size ≠ 1 ∧ size ≠ 4)
    (unsupported →
      (Config.onBusErr s.responses.length = .goesOn ∧
        step s = .next { s with port := rest, responses := s.responses ++ [.busErr] }) ∨
      (Config.onBusErr s.responses.length = .faults ∧ step s = .fault .busError)) ∧
    (¬ unsupported → ∃ t, step s = .next t ∧ t.responses[s.responses.length]? ≠ some .busErr)

/-- R71: while a command runs, STATUS reads at the head of the queue are answered with STATUS = 0x00000001 and every other access is
held, in its order, until the command has completed; during INIT likewise with the STATUS of the time. How many reads that
are is a free value (assumption log entry 2). -/
def Obligations.BusyWindowAnswersStatusReadsOnly : Prop :=
  (∀ (i : Instr) (s t : State), exec i s = .next t → ∃ k, s.pollsAnswered t k 0x00000001#32) ∧
  (∀ s t : State, s.seq = .init → (∀ rest, s.port ≠ .reset :: rest) → (∀ a rest, s.port ≠ .resetDuring a :: rest) →
    step s = .next t → ∃ k, s.pollsAnswered t k s.status.toWord)

/-- R60: the block decodes the platform addresses BASE to BASE + 0x3FFF, each to its block offset, and no other. -/
def Obligations.PlatformWindowIsDecoded : Prop :=
  (∀ off : Offset, blockOffset (Config.base + off.toNat) = some off) ∧
  (∀ addr, (∃ off, blockOffset addr = some off) ↔ Config.base ≤ addr ∧ addr < Config.base + 0x4000) ∧
  (∀ (s : State) (addr size : Nat) (v : Word), addr < Config.base ∨ Config.base + 0x4000 ≤ addr →
    s.issueRead addr size = s ∧ s.issueWrite addr size v = s)

/-- R97: the host's `sync`, performed by an idle block, puts the pattern 00 FF×10 00 at 0x000 to 0x00B and changes no other byte. -/
def Obligations.SyncWritesTheSyncPattern : Prop :=
  ∀ (s t u v : State) (rest : List HostEvent), s.seq = .idle → s.sector.wf → s.port = sync ++ rest →
    step s = .next t → step t = .next u → step u = .next v →
    v.sector.read 0x000 = 0x00#8 ∧ (∀ a, 0x001 ≤ a → a ≤ 0x00A → v.sector.read a = 0xFF#8) ∧ v.sector.read 0x00B = 0x00#8 ∧
    ∀ a, 0x00C ≤ a → v.sector.read a = s.sector.read a

/-! ### Reset, INIT and invariants (spec/10_state.md, spec/70_reset_and_hazards.md) -/

/-- R212: from reset with nothing placed at the port, the first step ends INIT and leaves the state of the table. That INIT ends in
one step is the model's (assumption log entry 1). -/
def Obligations.StateAfterInit : Prop :=
  ∃ t, step State.reset = .next t ∧ (∀ a, t.sector.read a = 0x00#8) ∧ t.cmd = 0#32 ∧ t.status.toWord = 0#32 ∧
    State.reset.status.toWord = 0x00000001#32 ∧ t.edcValue = 0#32 ∧ t.edcSrc = 0#32 ∧ t.edcLen = 0#32 ∧ t.edcDst = 0#32 ∧
    t.readReg .edcPoly = 0xD8018001#32 ∧ t.readReg .gfPoly = 0x0000011D#32 ∧ State.reset.seq = .init ∧ t.seq = .idle

/-- R32, R211: from INIT, whatever waits at the port but a reset, the step moves the sequencer to IDLE and BUSY to 0 and changes
nothing of the block beside; R71: no held access is performed in it, and only STATUS reads at the head of the queue are answered. That INIT
takes one step is the model's (assumption log entry 1). -/
def Obligations.InitEndsAndChangesNothingElse : Prop :=
  ∀ s : State, s.seq = .init → (∀ rest, s.port ≠ .reset :: rest) → (∀ a rest, s.port ≠ .resetDuring a :: rest) →
    ∃ t, step s = .next t ∧ t.seq = .idle ∧ t.status = { s.status with busy := false } ∧ t.sector = s.sector ∧
      t.cmd = s.cmd ∧ t.edcValue = s.edcValue ∧ t.edcSrc = s.edcSrc ∧ t.edcLen = s.edcLen ∧ t.edcDst = s.edcDst ∧
      ∃ k, s.pollsAnswered t k s.status.toWord

/-- R210, R183: a reset, in any state, sets every byte to 0x00, every register to 0, STATUS to 0x00000001 and the sequencer to INIT. With
an access in flight the model gives no meaning (assumption log entry 8). The accesses that wait and the responses given are the
host's, and the model keeps them (the same entry). -/
def Obligations.ResetSetsEveryResetValue : Prop :=
  ∀ (s : State) (rest : List HostEvent),
    (s.port = .reset :: rest → ∃ t, step s = .next t ∧ (∀ a, t.sector.read a = 0x00#8) ∧ t.cmd = 0#32 ∧ t.edcValue = 0#32 ∧
      t.edcSrc = 0#32 ∧ t.edcLen = 0#32 ∧ t.edcDst = 0#32 ∧ t.status = ⟨true, false, false, 0#4⟩ ∧ t.seq = .init ∧
      t.readReg .edcPoly = 0xD8018001#32 ∧ t.readReg .gfPoly = 0x0000011D#32 ∧ t.port = rest ∧
      t.responses = s.responses) ∧
    (∀ a, s.port = .resetDuring a :: rest → step s = .refused .accessInFlightAtReset)

/-- The reset state meets the invariant. -/
def Obligations.ResetMeetsTheInvariant : Prop := State.reset.Inv

/-- Every step keeps the invariant: the buffer's stored form, the consistency of STATUS with the sequencer, and that STATUS
describes the word in CMD (R27, R28, R32, R180, R181). -/
def Obligations.StepKeepsTheInvariant : Prop := ∀ s t : State, s.Inv → step s = .next t → t.Inv

/-- R27: in every state that meets the invariant, the STATUS word has BUSY in bit 0, 1 exactly in INIT and EXEC; DONE and ERR never
1 together, and neither with BUSY; ERRCODE 0 when ERR = 0; and the reserved bits 3 and 31:8 zero. -/
def Obligations.StatusWordIsConsistent : Prop :=
  ∀ s : State, s.Inv →
    let w := s.status.toWord
    (w.getLsbD 0 = true ↔ s.seq = .init ∨ ∃ c, s.seq = .exec c) ∧
    ¬ (w.getLsbD 1 = true ∧ w.getLsbD 2 = true) ∧
    (w.getLsbD 0 = true → w.getLsbD 1 = false ∧ w.getLsbD 2 = false) ∧
    (w.getLsbD 2 = false → w.extractLsb' 4 4 = 0#4) ∧
    w.getLsbD 3 = false ∧ w.extractLsb' 8 24 = 0#24

/-- R218, as a model should: a command is one atomic step, so no step leaves the sequencer in EXEC (assumption log entry 7). -/
def Obligations.NoStepRestsInExec : Prop :=
  ∀ s t : State, s.Inv → step s = .next t → ∀ c, t.seq ≠ .exec c

/-- R190, R220: once a run has ended the block does nothing by itself. -/
def Obligations.EndedRunStaysAsItIs : Prop := ∀ s : State, s.Inv → s.runEnded = true → step s = .next s

/-! ### The constant tables -/

/-- R34: the entries of ECC_F, and that the value before truncation never exceeds 0xFF. -/
def Obligations.EccFIsMultiplicationByAlpha : Prop :=
  ∀ i : Byte, (eccF i).toNat = (if i.toNat < 128 then 2 * i.toNat else (2 * i.toNat) ^^^ 0x11D) ∧
    (if i.toNat < 128 then 2 * i.toNat else (2 * i.toNat) ^^^ 0x11D) ≤ 0xFF

/-- R35: `ECC_B[i XOR ECC_F[i]] = i`, `i ↦ i XOR ECC_F[i]` is a bijection, and `ECC_B[y]` times α+1 is y. -/
def Obligations.EccBDividesByAlphaPlusOne : Prop :=
  (∀ i : Byte, eccB (i ^^^ eccF i) = i) ∧
  (∀ y : Byte, ∃ i : Byte, i ^^^ eccF i = y ∧ ∀ j : Byte, j ^^^ eccF j = y → j = i) ∧
  ∀ y : Byte, eccF (eccB y) ^^^ eccB y = y
end

