-- ==== Sys2Proof/Laws/Decode.lean ====
section
/-! SUPPORT. The fields of a command word determine it, and the fields of an assembled word. -/

namespace Sys2Proof

/-- Words with the same four fields are the same word (R91). -/
theorem word_ext_fields {w w' : Word} (hr : fieldRsvd w = fieldRsvd w') (ho : fieldOp w = fieldOp w')
    (ht : fieldType w = fieldType w') (hz : fieldZa w = fieldZa w') : w = w' := by
  refine BitVec.eq_of_getLsbD_eq (fun i hi => ?_)
  rcases (by omega : i < 4 ∨ (4 ≤ i ∧ i < 6) ∨ i = 6 ∨ 7 ≤ i) with h | h | h | h
  · have := congrArg (fun x => x.getLsbD i) ho
    simpa [fieldOp, BitVec.getLsbD_extractLsb', h] using this
  · have := congrArg (fun x => x.getLsbD (i - 4)) ht
    simpa [fieldType, BitVec.getLsbD_extractLsb', show i - 4 < 2 by omega, show 4 + (i - 4) = i by omega] using this
  · subst h
    exact hz
  · have := congrArg (fun x => x.getLsbD (i - 7)) hr
    simpa [fieldRsvd, BitVec.getLsbD_extractLsb', show i - 7 < 25 by omega, show 7 + (i - 7) = i by omega] using this

/-- The fields of an assembled word are the ones it was assembled from (R91). -/
theorem assemble_fields (op : BitVec 4) (ty : BitVec 2) (za : Bool) :
    fieldRsvd (assemble op ty za) = 0#25 ∧ fieldOp (assemble op ty za) = op ∧ fieldType (assemble op ty za) = ty ∧
      fieldZa (assemble op ty za) = za := by
  revert op ty za
  decide

/-- A word with RSVD = 0 is assembled from its fields. -/
theorem eq_assemble_of_rsvd {w : Word} (h : fieldRsvd w = 0#25) : w = assemble (fieldOp w) (fieldType w) (fieldZa w) := by
  obtain ⟨h0, h1, h2, h3⟩ := assemble_fields (fieldOp w) (fieldType w) (fieldZa w)
  exact word_ext_fields (h.trans h0.symm) h1.symm h2.symm h3.symm

end Sys2Proof
end

