-- ==== Sys2Proof/Laws/Memory.lean ====
section
/-! SUPPORT. The laws of the sector buffer: what a read gives after a write, that every operation keeps the stored form, and
that two buffers in the stored form with the same bytes are the same data. -/

namespace Sys2Proof.Machine

/-! ### `put` -/

theorem Memory.mem_put_offset {m : Memory} {o : Nat} {b : Byte} {c : Host.Cell} (h : c ∈ m.put o b) :
    c ∈ m ∨ (c = (o, b) ∧ b ≠ unwrittenByte) := by
  induction m with
  | nil =>
    simp only [Memory.put] at h
    split at h <;> simp_all
  | cons x rest ih =>
    obtain ⟨x, d⟩ := x
    simp only [Memory.put] at h
    split at h
    · split at h
      · exact .inl h
      · rcases List.mem_cons.1 h with h | h
        · exact .inr ⟨h, by assumption⟩
        · exact .inl h
    · split at h
      · split at h
        · exact .inl (List.mem_cons_of_mem _ h)
        · rcases List.mem_cons.1 h with h | h
          · exact .inr ⟨h, by assumption⟩
          · exact .inl (List.mem_cons_of_mem _ h)
      · rcases List.mem_cons.1 h with h | h
        · exact .inl (by simp [h])
        · rcases ih h with h | h
          · exact .inl (List.mem_cons_of_mem _ h)
          · exact .inr h

theorem Memory.pairwise_put {m : Memory} (h : m.Pairwise (fun x y => x.1 < y.1)) (o : Nat) (b : Byte) :
    (m.put o b).Pairwise (fun x y => x.1 < y.1) := by
  induction m with
  | nil =>
    simp only [Memory.put]
    split <;> simp
  | cons x rest ih =>
    obtain ⟨x, d⟩ := x
    obtain ⟨hx, hr⟩ := List.pairwise_cons.1 h
    simp only [Memory.put]
    split
    · split
      · exact h
      · refine List.pairwise_cons.2 ⟨fun c hc => ?_, h⟩
        rcases List.mem_cons.1 hc with hc | hc
        · simp_all
        · have := hx c hc
          simp only at this ⊢
          omega
    · split
      · split
        · exact hr
        · refine List.pairwise_cons.2 ⟨fun c hc => ?_, hr⟩
          have := hx c hc
          simp only at this ⊢
          omega
      · refine List.pairwise_cons.2 ⟨fun c hc => ?_, ih hr⟩
        rcases Memory.mem_put_offset hc with hc | ⟨rfl, -⟩
        · exact hx c hc
        · simp only
          omega

theorem Memory.read_of_lt_all {m : Memory} {o : Nat} (h : ∀ c ∈ m, o < c.1) : m.read o = unwrittenByte := by
  induction m with
  | nil => rfl
  | cons x rest ih =>
    obtain ⟨x, d⟩ := x
    have hx : o < x := h (x, d) (by simp)
    rw [Memory.read, if_neg (by omega), ih (fun c hc => h c (List.mem_cons_of_mem _ hc))]

theorem Memory.read_put {m : Memory} (h : m.Pairwise (fun x y => x.1 < y.1)) (o : Nat) (b : Byte) (a : Nat) :
    (m.put o b).read a = if a = o then b else m.read a := by
  induction m with
  | nil =>
    simp only [Memory.put]
    by_cases hb : b = unwrittenByte
    · simp [hb, Memory.read]
    · simp only [if_neg hb, Memory.read]
      by_cases ha : a = o
      · simp [ha]
      · simp [ha, Ne.symm ha]
  | cons x rest ih =>
    obtain ⟨x, d⟩ := x
    obtain ⟨hx, hr⟩ := List.pairwise_cons.1 h
    simp only [Memory.put]
    by_cases h1 : o < x
    · rw [if_pos h1]
      by_cases hb : b = unwrittenByte
      · rw [if_pos hb]
        by_cases ha : a = o
        · rw [if_pos ha, hb, ha]
          exact Memory.read_of_lt_all (fun c hc => by
            rcases List.mem_cons.1 hc with hc | hc
            · simpa [hc] using h1
            · exact Nat.lt_trans h1 (hx c hc))
        · rw [if_neg ha]
      · rw [if_neg hb, Memory.read]
        by_cases ha : a = o
        · simp [ha]
        · simp [ha, Ne.symm ha]
    · rw [if_neg h1]
      by_cases h2 : o = x
      · rw [if_pos h2]
        by_cases hb : b = unwrittenByte
        · rw [if_pos hb]
          by_cases ha : a = o
          · rw [if_pos ha, hb]
            exact Memory.read_of_lt_all (fun c hc => by rw [ha, h2]; exact hx c hc)
          · rw [if_neg ha, Memory.read, if_neg (by omega)]
        · rw [if_neg hb]
          simp only [Memory.read]
          by_cases ha : a = o
          · simp [ha]
          · rw [if_neg (Ne.symm ha), if_neg ha, if_neg (by omega)]
      · rw [if_neg h2]
        simp only [Memory.read]
        rw [ih hr]
        by_cases ha : x = a
        · rw [if_pos ha, if_pos ha, if_neg (by omega)]
        · rw [if_neg ha, if_neg ha]

/-! ### One byte -/

/-- A write keeps the stored form. -/
theorem Memory.wf_write {m : Memory} (h : m.wf) (o : Nat) (b : Byte) : (m.write o b).wf := by
  unfold Memory.write
  split
  · refine ⟨Memory.pairwise_put h.1 o b, fun c hc => ?_⟩
    rcases Memory.mem_put_offset hc with hc | ⟨rfl, hb⟩
    · exact h.2 c hc
    · exact ⟨by assumption, hb⟩
  · exact h

/-- Read after write: the written offset gives the byte written, every other offset what it gave before. -/
theorem Memory.read_write {m : Memory} (h : m.wf) (o : Nat) (b : Byte) (a : Nat) :
    (m.write o b).read a = if a = o ∧ o < Config.sectorSize then b else m.read a := by
  unfold Memory.write
  split
  · rw [Memory.read_put h.1]
    simp [*]
  · simp [*]

theorem Memory.read_write_same {m : Memory} (h : m.wf) {o : Nat} (b : Byte) (ho : o < Config.sectorSize) :
    (m.write o b).read o = b := by
  simp [Memory.read_write h, ho]

theorem Memory.read_write_other {m : Memory} (h : m.wf) {o a : Nat} (b : Byte) (ha : a ≠ o) :
    (m.write o b).read a = m.read a := by
  simp [Memory.read_write h, ha]

/-- No byte exists outside the buffer, and none is listed there. -/
theorem Memory.read_outside {m : Memory} (h : m.wf) {a : Nat} (ha : Config.sectorSize ≤ a) :
    m.read a = unwrittenByte := by
  induction m with
  | nil => rfl
  | cons x rest ih =>
    obtain ⟨x, d⟩ := x
    have hx := (h.2 (x, d) (by simp)).1
    rw [Memory.read, if_neg (by simp only at hx; omega)]
    exact ih ⟨(List.pairwise_cons.1 h.1).2, fun c hc => h.2 c (List.mem_cons_of_mem _ hc)⟩

/-- Equal buffers are equal data: the stored form is canonical. -/
theorem Memory.ext_read {m m' : Memory} (h : m.wf) (h' : m'.wf) (heq : ∀ a, m.read a = m'.read a) : m = m' := by
  have key : ∀ (n : Memory), n.wf → ∀ c ∈ n, n.read c.1 = c.2 := by
    intro n hn c hc
    induction n with
    | nil => simp at hc
    | cons x rest ih =>
      obtain ⟨x, d⟩ := x
      obtain ⟨hx, hr⟩ := List.pairwise_cons.1 hn.1
      rcases List.mem_cons.1 hc with hc | hc
      · simp [hc, Memory.read]
      · have := hx c hc
        rw [Memory.read, if_neg (by simp only at this; omega)]
        exact ih ⟨hr, fun c hc => hn.2 c (List.mem_cons_of_mem _ hc)⟩ hc
  induction m generalizing m' with
  | nil =>
    cases m' with
    | nil => rfl
    | cons y r =>
      have h1 := heq y.1
      rw [key _ h' y (by simp)] at h1
      exact absurd h1.symm (h'.2 y (by simp)).2
  | cons x rest ih =>
    cases m' with
    | nil =>
      have h1 := heq x.1
      rw [key _ h x (by simp)] at h1
      exact absurd h1 (h.2 x (by simp)).2
    | cons y r =>
      obtain ⟨x, d⟩ := x
      obtain ⟨y, e⟩ := y
      obtain ⟨hx, hr⟩ := List.pairwise_cons.1 h.1
      obtain ⟨hy, hr'⟩ := List.pairwise_cons.1 h'.1
      have hd := (h.2 (x, d) (by simp)).2
      have he := (h'.2 (y, e) (by simp)).2
      have hxy : x = y := by
        rcases Nat.lt_trichotomy x y with hlt | heq' | hlt
        · have h1 := heq x
          rw [Memory.read, if_pos rfl, Memory.read_of_lt_all (m := (y, e) :: r) (fun c hc => by
            rcases List.mem_cons.1 hc with hc | hc
            · simpa [hc] using hlt
            · exact Nat.lt_trans hlt (hy c hc))] at h1
          exact absurd h1 hd
        · exact heq'
        · have h1 := heq y
          rw [Memory.read_of_lt_all (m := (x, d) :: rest) (fun c hc => by
            rcases List.mem_cons.1 hc with hc | hc
            · simpa [hc] using hlt
            · exact Nat.lt_trans hlt (hx c hc)), Memory.read, if_pos rfl] at h1
          exact absurd h1.symm he
      subst hxy
      have hde : d = e := by
        have h1 := heq x
        simpa [Memory.read] using h1
      subst hde
      congr 1
      refine ih ⟨hr, fun c hc => h.2 c (List.mem_cons_of_mem _ hc)⟩
        ⟨hr', fun c hc => h'.2 c (List.mem_cons_of_mem _ hc)⟩ (fun a => ?_)
      by_cases ha : x = a
      · subst ha
        rw [Memory.read_of_lt_all hx, Memory.read_of_lt_all hy]
      · have h1 := heq a
        simpa [Memory.read, ha] using h1

/-! ### Several bytes -/

theorem Memory.wf_writeBytes {m : Memory} (h : m.wf) (o : Nat) (bs : List Byte) : (m.writeBytes o bs).wf := by
  induction bs generalizing m o with
  | nil => exact h
  | cons b rest ih => exact ih (Memory.wf_write h o b) (o + 1)

/-- Read after a write of consecutive bytes that lie in the buffer. -/
theorem Memory.read_writeBytes {m : Memory} (h : m.wf) (o : Nat) (bs : List Byte)
    (hfit : o + bs.length ≤ Config.sectorSize) (a : Nat) :
    (m.writeBytes o bs).read a =
      if o ≤ a ∧ a < o + bs.length then bs.getD (a - o) unwrittenByte else m.read a := by
  induction bs generalizing m o with
  | nil =>
    rw [Memory.writeBytes, if_neg (by simp)]
  | cons b rest ih =>
    simp only [List.length_cons] at hfit ⊢
    rw [Memory.writeBytes, ih (Memory.wf_write h o b) (o + 1) (by omega), Memory.read_write h]
    by_cases ha : a = o
    · subst ha
      rw [if_neg (by omega), if_pos (by omega), if_pos (by omega)]
      simp
    · by_cases h1 : o + 1 ≤ a ∧ a < o + 1 + rest.length
      · rw [if_pos h1, if_pos (by omega)]
        obtain ⟨k, rfl⟩ : ∃ k, a = o + 1 + k := ⟨a - (o + 1), by omega⟩
        rw [show o + 1 + k - o = k + 1 by omega, show o + 1 + k - (o + 1) = k by omega]
        simp
      · rw [if_neg h1, if_neg (by omega), if_neg (by omega)]

/-- Outside the written range nothing changes, wherever the range lies. -/
theorem Memory.read_writeBytes_outside {m : Memory} (h : m.wf) (o : Nat) (bs : List Byte) {a : Nat}
    (ha : a < o ∨ o + bs.length ≤ a) : (m.writeBytes o bs).read a = m.read a := by
  induction bs generalizing m o with
  | nil => rfl
  | cons b rest ih =>
    simp only [List.length_cons] at ha
    rw [Memory.writeBytes, ih (Memory.wf_write h o b) (o + 1) (by omega),
      Memory.read_write_other h b (by omega)]

@[simp] theorem Memory.length_readBytes (m : Memory) (o n : Nat) : (m.readBytes o n).length = n := by
  simp [Memory.readBytes]

theorem Memory.getD_readBytes (m : Memory) (o n k : Nat) (hk : k < n) (d : Byte) :
    (m.readBytes o n).getD k d = m.read (o + k) := by
  simp [Memory.readBytes, List.getD, hk]

/-- Buffers that agree on a range give the same bytes there. -/
theorem Memory.readBytes_congr {m m' : Memory} {o n : Nat} (h : ∀ a, o ≤ a → a < o + n → m.read a = m'.read a) :
    m.readBytes o n = m'.readBytes o n := by
  unfold Memory.readBytes
  refine List.map_congr_left (fun a ha => ?_)
  obtain ⟨i, hi, rfl⟩ := List.mem_range'.1 ha
  exact h _ (by omega) (by omega)

theorem Memory.readBytes_append (m : Memory) (o n k : Nat) :
    m.readBytes o (n + k) = m.readBytes o n ++ m.readBytes (o + n) k := by
  unfold Memory.readBytes
  rw [← List.map_append, List.range'_append_1]

@[simp] theorem length_leBytes (v : Word) : (leBytes v).length = 4 := rfl

/-- A word's bytes, put together again, are the word. -/
theorem leWord_leBytes (v : Word) :
    leWord (v.extractLsb' 0 8) (v.extractLsb' 8 8) (v.extractLsb' 16 8) (v.extractLsb' 24 8) = v := by
  refine BitVec.eq_of_getLsbD_eq (fun i hi => ?_)
  simp only [leWord, BitVec.getLsbD_append, BitVec.getLsbD_extractLsb']
  rcases (by omega : i < 8 ∨ (8 ≤ i ∧ i < 16) ∨ (16 ≤ i ∧ i < 24) ∨ (24 ≤ i ∧ i < 32)) with h | h | h | h
  · simp [show i < 8 by omega, show i < 16 by omega, show i < 24 by omega]
  · simp [show ¬ i < 8 by omega, show i < 16 by omega, show i < 24 by omega, show i - 8 < 8 by omega,
      show 8 + (i - 8) = i by omega]
  · simp [show ¬ i < 16 by omega, show i < 24 by omega, show i - 16 < 8 by omega, show 16 + (i - 16) = i by omega]
  · simp [show ¬ i < 24 by omega, show i - 24 < 8 by omega, show 24 + (i - 24) = i by omega]

/-- The bytes of a word put together are the bytes it was put together from. -/
theorem leBytes_leWord (b0 b1 b2 b3 : Byte) : leBytes (leWord b0 b1 b2 b3) = [b0, b1, b2, b3] := by
  unfold leBytes leWord
  refine congrArg₂ _ ?_ (congrArg₂ _ ?_ (congrArg₂ _ ?_ (congrArg₂ _ ?_ rfl))) <;>
    refine BitVec.eq_of_getLsbD_eq (fun i hi => ?_) <;>
    simp only [BitVec.getLsbD_append, BitVec.getLsbD_extractLsb', hi, decide_true, Bool.true_and]
  · simp [show i < 8 by omega, show i < 16 by omega, show i < 24 by omega]
  · simp [show ¬ 8 + i < 8 by omega, show 8 + i < 16 by omega, show 8 + i < 24 by omega]
  · simp [show ¬ 16 + i < 16 by omega, show 16 + i < 24 by omega]
  · simp [show ¬ 24 + i < 24 by omega, show 24 + i - 24 = i by omega]

/-- Buffers with the same word at `o` have the same four bytes there. -/
theorem Memory.read_of_loadLE32 {m m' : Memory} {o : Nat} (h : m.loadLE32 o = m'.loadLE32 o) {k : Nat} (hk : k < 4) :
    m.read (o + k) = m'.read (o + k) := by
  have h1 := congrArg leBytes h
  simp only [Memory.loadLE32, leBytes_leWord, List.cons.injEq, and_true] at h1
  obtain ⟨h0, h1, h2, h3⟩ := h1
  rcases (by omega : k = 0 ∨ k = 1 ∨ k = 2 ∨ k = 3) with rfl | rfl | rfl | rfl
  · exact h0
  · exact h1
  · exact h2
  · exact h3

theorem Memory.wf_storeLE32 {m : Memory} (h : m.wf) (o : Nat) (v : Word) : (m.storeLE32 o v).wf :=
  Memory.wf_writeBytes h o _

theorem Memory.read_storeLE32_outside {m : Memory} (h : m.wf) (o : Nat) (v : Word) {a : Nat}
    (ha : a < o ∨ o + 4 ≤ a) : (m.storeLE32 o v).read a = m.read a :=
  Memory.read_writeBytes_outside h o _ ha

/-- Byte `k` of a stored word (R12). -/
theorem Memory.read_storeLE32 {m : Memory} (h : m.wf) {o : Nat} (ho : o + 4 ≤ Config.sectorSize) (v : Word) {k : Nat}
    (hk : k < 4) : (m.storeLE32 o v).read (o + k) = v.extractLsb' (8 * k) 8 := by
  rw [Memory.storeLE32, Memory.read_writeBytes h o (leBytes v) ho, if_pos (by simp; omega), Nat.add_sub_cancel_left]
  rcases (by omega : k = 0 ∨ k = 1 ∨ k = 2 ∨ k = 3) with rfl | rfl | rfl | rfl <;> rfl

theorem Memory.readBytes_storeLE32 {m : Memory} (h : m.wf) {o : Nat} (ho : o + 4 ≤ Config.sectorSize) (v : Word) :
    (m.storeLE32 o v).readBytes o 4 = leBytes v := by
  have h0 := Memory.read_storeLE32 h ho v (k := 0) (by omega)
  have h1 := Memory.read_storeLE32 h ho v (k := 1) (by omega)
  have h2 := Memory.read_storeLE32 h ho v (k := 2) (by omega)
  have h3 := Memory.read_storeLE32 h ho v (k := 3) (by omega)
  rw [Nat.add_zero] at h0
  simp only [Memory.readBytes, List.range', List.map, Nat.add_assoc, Nat.reduceAdd, leBytes, h0, h1, h2, h3]

theorem Memory.loadLE32_storeLE32 {m : Memory} (h : m.wf) {o : Nat} (ho : o + 4 ≤ Config.sectorSize) (v : Word) :
    (m.storeLE32 o v).loadLE32 o = v := by
  have h0 := Memory.read_storeLE32 h ho v (k := 0) (by omega)
  have h1 := Memory.read_storeLE32 h ho v (k := 1) (by omega)
  have h2 := Memory.read_storeLE32 h ho v (k := 2) (by omega)
  have h3 := Memory.read_storeLE32 h ho v (k := 3) (by omega)
  rw [Nat.add_zero] at h0
  rw [Memory.loadLE32, h0, h1, h2, h3]
  exact leWord_leBytes v

theorem Memory.wf_reset : State.reset.sector.wf := by
  simp [State.reset, Memory.wf]

end Sys2Proof.Machine
end

