-- ==== Sys2Proof/Laws/State.lean ====
section
/-! SUPPORT. One lemma per field per update of State, and per field per update of STATUS, so that no proof unfolds a record
update. -/

namespace Sys2Proof.Machine

@[simp] theorem State.setSector_sector (s : State) (m : Memory) : (s.setSector m).sector = m := rfl
@[simp] theorem State.setSector_cmd (s : State) (m : Memory) : (s.setSector m).cmd = s.cmd := rfl
@[simp] theorem State.setSector_status (s : State) (m : Memory) : (s.setSector m).status = s.status := rfl
@[simp] theorem State.setSector_edcValue (s : State) (m : Memory) : (s.setSector m).edcValue = s.edcValue := rfl
@[simp] theorem State.setSector_edcSrc (s : State) (m : Memory) : (s.setSector m).edcSrc = s.edcSrc := rfl
@[simp] theorem State.setSector_edcLen (s : State) (m : Memory) : (s.setSector m).edcLen = s.edcLen := rfl
@[simp] theorem State.setSector_edcDst (s : State) (m : Memory) : (s.setSector m).edcDst = s.edcDst := rfl
@[simp] theorem State.setSector_seq (s : State) (m : Memory) : (s.setSector m).seq = s.seq := rfl
@[simp] theorem State.setSector_port (s : State) (m : Memory) : (s.setSector m).port = s.port := rfl
@[simp] theorem State.setSector_responses (s : State) (m : Memory) : (s.setSector m).responses = s.responses := rfl
@[simp] theorem State.setSector_windows (s : State) (m : Memory) : (s.setSector m).windows = s.windows := rfl

@[simp] theorem State.setCmd_sector (s : State) (w : Word) : (s.setCmd w).sector = s.sector := rfl
@[simp] theorem State.setCmd_cmd (s : State) (w : Word) : (s.setCmd w).cmd = w := rfl
@[simp] theorem State.setCmd_status (s : State) (w : Word) : (s.setCmd w).status = s.status := rfl
@[simp] theorem State.setCmd_edcValue (s : State) (w : Word) : (s.setCmd w).edcValue = s.edcValue := rfl
@[simp] theorem State.setCmd_edcSrc (s : State) (w : Word) : (s.setCmd w).edcSrc = s.edcSrc := rfl
@[simp] theorem State.setCmd_edcLen (s : State) (w : Word) : (s.setCmd w).edcLen = s.edcLen := rfl
@[simp] theorem State.setCmd_edcDst (s : State) (w : Word) : (s.setCmd w).edcDst = s.edcDst := rfl
@[simp] theorem State.setCmd_seq (s : State) (w : Word) : (s.setCmd w).seq = s.seq := rfl
@[simp] theorem State.setCmd_port (s : State) (w : Word) : (s.setCmd w).port = s.port := rfl
@[simp] theorem State.setCmd_responses (s : State) (w : Word) : (s.setCmd w).responses = s.responses := rfl
@[simp] theorem State.setCmd_windows (s : State) (w : Word) : (s.setCmd w).windows = s.windows := rfl

@[simp] theorem State.setStatus_sector (s : State) (st : Status) : (s.setStatus st).sector = s.sector := rfl
@[simp] theorem State.setStatus_cmd (s : State) (st : Status) : (s.setStatus st).cmd = s.cmd := rfl
@[simp] theorem State.setStatus_status (s : State) (st : Status) : (s.setStatus st).status = st := rfl
@[simp] theorem State.setStatus_edcValue (s : State) (st : Status) : (s.setStatus st).edcValue = s.edcValue := rfl
@[simp] theorem State.setStatus_edcSrc (s : State) (st : Status) : (s.setStatus st).edcSrc = s.edcSrc := rfl
@[simp] theorem State.setStatus_edcLen (s : State) (st : Status) : (s.setStatus st).edcLen = s.edcLen := rfl
@[simp] theorem State.setStatus_edcDst (s : State) (st : Status) : (s.setStatus st).edcDst = s.edcDst := rfl
@[simp] theorem State.setStatus_seq (s : State) (st : Status) : (s.setStatus st).seq = s.seq := rfl
@[simp] theorem State.setStatus_port (s : State) (st : Status) : (s.setStatus st).port = s.port := rfl
@[simp] theorem State.setStatus_responses (s : State) (st : Status) : (s.setStatus st).responses = s.responses := rfl
@[simp] theorem State.setStatus_windows (s : State) (st : Status) : (s.setStatus st).windows = s.windows := rfl

@[simp] theorem State.setEdcValue_sector (s : State) (v : Word) : (s.setEdcValue v).sector = s.sector := rfl
@[simp] theorem State.setEdcValue_cmd (s : State) (v : Word) : (s.setEdcValue v).cmd = s.cmd := rfl
@[simp] theorem State.setEdcValue_status (s : State) (v : Word) : (s.setEdcValue v).status = s.status := rfl
@[simp] theorem State.setEdcValue_edcValue (s : State) (v : Word) : (s.setEdcValue v).edcValue = v := rfl
@[simp] theorem State.setEdcValue_edcSrc (s : State) (v : Word) : (s.setEdcValue v).edcSrc = s.edcSrc := rfl
@[simp] theorem State.setEdcValue_edcLen (s : State) (v : Word) : (s.setEdcValue v).edcLen = s.edcLen := rfl
@[simp] theorem State.setEdcValue_edcDst (s : State) (v : Word) : (s.setEdcValue v).edcDst = s.edcDst := rfl
@[simp] theorem State.setEdcValue_seq (s : State) (v : Word) : (s.setEdcValue v).seq = s.seq := rfl
@[simp] theorem State.setEdcValue_port (s : State) (v : Word) : (s.setEdcValue v).port = s.port := rfl
@[simp] theorem State.setEdcValue_responses (s : State) (v : Word) : (s.setEdcValue v).responses = s.responses := rfl
@[simp] theorem State.setEdcValue_windows (s : State) (v : Word) : (s.setEdcValue v).windows = s.windows := rfl

@[simp] theorem State.setEdcSrc_sector (s : State) (v : Word) : (s.setEdcSrc v).sector = s.sector := rfl
@[simp] theorem State.setEdcSrc_cmd (s : State) (v : Word) : (s.setEdcSrc v).cmd = s.cmd := rfl
@[simp] theorem State.setEdcSrc_status (s : State) (v : Word) : (s.setEdcSrc v).status = s.status := rfl
@[simp] theorem State.setEdcSrc_edcValue (s : State) (v : Word) : (s.setEdcSrc v).edcValue = s.edcValue := rfl
@[simp] theorem State.setEdcSrc_edcSrc (s : State) (v : Word) : (s.setEdcSrc v).edcSrc = v := rfl
@[simp] theorem State.setEdcSrc_edcLen (s : State) (v : Word) : (s.setEdcSrc v).edcLen = s.edcLen := rfl
@[simp] theorem State.setEdcSrc_edcDst (s : State) (v : Word) : (s.setEdcSrc v).edcDst = s.edcDst := rfl
@[simp] theorem State.setEdcSrc_seq (s : State) (v : Word) : (s.setEdcSrc v).seq = s.seq := rfl
@[simp] theorem State.setEdcSrc_port (s : State) (v : Word) : (s.setEdcSrc v).port = s.port := rfl
@[simp] theorem State.setEdcSrc_responses (s : State) (v : Word) : (s.setEdcSrc v).responses = s.responses := rfl
@[simp] theorem State.setEdcSrc_windows (s : State) (v : Word) : (s.setEdcSrc v).windows = s.windows := rfl

@[simp] theorem State.setEdcLen_sector (s : State) (v : Word) : (s.setEdcLen v).sector = s.sector := rfl
@[simp] theorem State.setEdcLen_cmd (s : State) (v : Word) : (s.setEdcLen v).cmd = s.cmd := rfl
@[simp] theorem State.setEdcLen_status (s : State) (v : Word) : (s.setEdcLen v).status = s.status := rfl
@[simp] theorem State.setEdcLen_edcValue (s : State) (v : Word) : (s.setEdcLen v).edcValue = s.edcValue := rfl
@[simp] theorem State.setEdcLen_edcSrc (s : State) (v : Word) : (s.setEdcLen v).edcSrc = s.edcSrc := rfl
@[simp] theorem State.setEdcLen_edcLen (s : State) (v : Word) : (s.setEdcLen v).edcLen = v := rfl
@[simp] theorem State.setEdcLen_edcDst (s : State) (v : Word) : (s.setEdcLen v).edcDst = s.edcDst := rfl
@[simp] theorem State.setEdcLen_seq (s : State) (v : Word) : (s.setEdcLen v).seq = s.seq := rfl
@[simp] theorem State.setEdcLen_port (s : State) (v : Word) : (s.setEdcLen v).port = s.port := rfl
@[simp] theorem State.setEdcLen_responses (s : State) (v : Word) : (s.setEdcLen v).responses = s.responses := rfl
@[simp] theorem State.setEdcLen_windows (s : State) (v : Word) : (s.setEdcLen v).windows = s.windows := rfl

@[simp] theorem State.setEdcDst_sector (s : State) (v : Word) : (s.setEdcDst v).sector = s.sector := rfl
@[simp] theorem State.setEdcDst_cmd (s : State) (v : Word) : (s.setEdcDst v).cmd = s.cmd := rfl
@[simp] theorem State.setEdcDst_status (s : State) (v : Word) : (s.setEdcDst v).status = s.status := rfl
@[simp] theorem State.setEdcDst_edcValue (s : State) (v : Word) : (s.setEdcDst v).edcValue = s.edcValue := rfl
@[simp] theorem State.setEdcDst_edcSrc (s : State) (v : Word) : (s.setEdcDst v).edcSrc = s.edcSrc := rfl
@[simp] theorem State.setEdcDst_edcLen (s : State) (v : Word) : (s.setEdcDst v).edcLen = s.edcLen := rfl
@[simp] theorem State.setEdcDst_edcDst (s : State) (v : Word) : (s.setEdcDst v).edcDst = v := rfl
@[simp] theorem State.setEdcDst_seq (s : State) (v : Word) : (s.setEdcDst v).seq = s.seq := rfl
@[simp] theorem State.setEdcDst_port (s : State) (v : Word) : (s.setEdcDst v).port = s.port := rfl
@[simp] theorem State.setEdcDst_responses (s : State) (v : Word) : (s.setEdcDst v).responses = s.responses := rfl
@[simp] theorem State.setEdcDst_windows (s : State) (v : Word) : (s.setEdcDst v).windows = s.windows := rfl

@[simp] theorem State.setSeq_sector (s : State) (q : Sequencer) : (s.setSeq q).sector = s.sector := rfl
@[simp] theorem State.setSeq_cmd (s : State) (q : Sequencer) : (s.setSeq q).cmd = s.cmd := rfl
@[simp] theorem State.setSeq_status (s : State) (q : Sequencer) : (s.setSeq q).status = s.status := rfl
@[simp] theorem State.setSeq_edcValue (s : State) (q : Sequencer) : (s.setSeq q).edcValue = s.edcValue := rfl
@[simp] theorem State.setSeq_edcSrc (s : State) (q : Sequencer) : (s.setSeq q).edcSrc = s.edcSrc := rfl
@[simp] theorem State.setSeq_edcLen (s : State) (q : Sequencer) : (s.setSeq q).edcLen = s.edcLen := rfl
@[simp] theorem State.setSeq_edcDst (s : State) (q : Sequencer) : (s.setSeq q).edcDst = s.edcDst := rfl
@[simp] theorem State.setSeq_seq (s : State) (q : Sequencer) : (s.setSeq q).seq = q := rfl
@[simp] theorem State.setSeq_port (s : State) (q : Sequencer) : (s.setSeq q).port = s.port := rfl
@[simp] theorem State.setSeq_responses (s : State) (q : Sequencer) : (s.setSeq q).responses = s.responses := rfl
@[simp] theorem State.setSeq_windows (s : State) (q : Sequencer) : (s.setSeq q).windows = s.windows := rfl

@[simp] theorem State.setPort_sector (s : State) (p : List HostEvent) : (s.setPort p).sector = s.sector := rfl
@[simp] theorem State.setPort_cmd (s : State) (p : List HostEvent) : (s.setPort p).cmd = s.cmd := rfl
@[simp] theorem State.setPort_status (s : State) (p : List HostEvent) : (s.setPort p).status = s.status := rfl
@[simp] theorem State.setPort_edcValue (s : State) (p : List HostEvent) : (s.setPort p).edcValue = s.edcValue := rfl
@[simp] theorem State.setPort_edcSrc (s : State) (p : List HostEvent) : (s.setPort p).edcSrc = s.edcSrc := rfl
@[simp] theorem State.setPort_edcLen (s : State) (p : List HostEvent) : (s.setPort p).edcLen = s.edcLen := rfl
@[simp] theorem State.setPort_edcDst (s : State) (p : List HostEvent) : (s.setPort p).edcDst = s.edcDst := rfl
@[simp] theorem State.setPort_seq (s : State) (p : List HostEvent) : (s.setPort p).seq = s.seq := rfl
@[simp] theorem State.setPort_port (s : State) (p : List HostEvent) : (s.setPort p).port = p := rfl
@[simp] theorem State.setPort_responses (s : State) (p : List HostEvent) : (s.setPort p).responses = s.responses := rfl
@[simp] theorem State.setPort_windows (s : State) (p : List HostEvent) : (s.setPort p).windows = s.windows := rfl

@[simp] theorem State.respond_sector (s : State) (rs : List Response) : (s.respond rs).sector = s.sector := rfl
@[simp] theorem State.respond_cmd (s : State) (rs : List Response) : (s.respond rs).cmd = s.cmd := rfl
@[simp] theorem State.respond_status (s : State) (rs : List Response) : (s.respond rs).status = s.status := rfl
@[simp] theorem State.respond_edcValue (s : State) (rs : List Response) : (s.respond rs).edcValue = s.edcValue := rfl
@[simp] theorem State.respond_edcSrc (s : State) (rs : List Response) : (s.respond rs).edcSrc = s.edcSrc := rfl
@[simp] theorem State.respond_edcLen (s : State) (rs : List Response) : (s.respond rs).edcLen = s.edcLen := rfl
@[simp] theorem State.respond_edcDst (s : State) (rs : List Response) : (s.respond rs).edcDst = s.edcDst := rfl
@[simp] theorem State.respond_seq (s : State) (rs : List Response) : (s.respond rs).seq = s.seq := rfl
@[simp] theorem State.respond_port (s : State) (rs : List Response) : (s.respond rs).port = s.port := rfl
@[simp] theorem State.respond_responses (s : State) (rs : List Response) : (s.respond rs).responses = s.responses ++ rs := rfl
@[simp] theorem State.respond_windows (s : State) (rs : List Response) : (s.respond rs).windows = s.windows := rfl

@[simp] theorem State.nextWindow_sector (s : State) : s.nextWindow.sector = s.sector := rfl
@[simp] theorem State.nextWindow_cmd (s : State) : s.nextWindow.cmd = s.cmd := rfl
@[simp] theorem State.nextWindow_status (s : State) : s.nextWindow.status = s.status := rfl
@[simp] theorem State.nextWindow_edcValue (s : State) : s.nextWindow.edcValue = s.edcValue := rfl
@[simp] theorem State.nextWindow_edcSrc (s : State) : s.nextWindow.edcSrc = s.edcSrc := rfl
@[simp] theorem State.nextWindow_edcLen (s : State) : s.nextWindow.edcLen = s.edcLen := rfl
@[simp] theorem State.nextWindow_edcDst (s : State) : s.nextWindow.edcDst = s.edcDst := rfl
@[simp] theorem State.nextWindow_seq (s : State) : s.nextWindow.seq = s.seq := rfl
@[simp] theorem State.nextWindow_port (s : State) : s.nextWindow.port = s.port := rfl
@[simp] theorem State.nextWindow_responses (s : State) : s.nextWindow.responses = s.responses := rfl
@[simp] theorem State.nextWindow_windows (s : State) : s.nextWindow.windows = s.windows + 1 := rfl

@[simp] theorem Status.cleared_busy (st : Status) : st.cleared.busy = st.busy := rfl
@[simp] theorem Status.cleared_done (st : Status) : st.cleared.done = false := rfl
@[simp] theorem Status.cleared_err (st : Status) : st.cleared.err = false := rfl
@[simp] theorem Status.cleared_errCode (st : Status) : st.cleared.errCode = 0#4 := rfl
@[simp] theorem Status.started_busy (st : Status) : st.started.busy = true := rfl
@[simp] theorem Status.started_done (st : Status) : st.started.done = st.done := rfl
@[simp] theorem Status.started_err (st : Status) : st.started.err = st.err := rfl
@[simp] theorem Status.started_errCode (st : Status) : st.started.errCode = st.errCode := rfl
@[simp] theorem Status.completed_busy (st : Status) : st.completed.busy = false := rfl
@[simp] theorem Status.completed_done (st : Status) : st.completed.done = true := rfl
@[simp] theorem Status.completed_err (st : Status) : st.completed.err = st.err := rfl
@[simp] theorem Status.completed_errCode (st : Status) : st.completed.errCode = st.errCode := rfl
@[simp] theorem Status.initialised_busy (st : Status) : st.initialised.busy = false := rfl
@[simp] theorem Status.initialised_done (st : Status) : st.initialised.done = st.done := rfl
@[simp] theorem Status.initialised_err (st : Status) : st.initialised.err = st.err := rfl
@[simp] theorem Status.initialised_errCode (st : Status) : st.initialised.errCode = st.errCode := rfl
@[simp] theorem Status.rejected_busy (st : Status) (e : CommandError) : (st.rejected e).busy = st.busy := rfl
@[simp] theorem Status.rejected_done (st : Status) (e : CommandError) : (st.rejected e).done = st.done := rfl
@[simp] theorem Status.rejected_err (st : Status) (e : CommandError) : (st.rejected e).err = true := rfl
@[simp] theorem Status.rejected_errCode (st : Status) (e : CommandError) : (st.rejected e).errCode = e.code := rfl

@[simp] theorem CommandError.code_illegalCmd : CommandError.illegalCmd.code = 1#4 := rfl
@[simp] theorem CommandError.code_edcRange : CommandError.edcRange.code = 2#4 := rfl

end Sys2Proof.Machine
end

