-- ==== Sys2Proof/Laws/Ops.lean ====
section
/-! SUPPORT. What each shared operation of Machine/Ops.lean does to each field, and what a BUSY window answers. -/

namespace Sys2Proof.Machine

/-! ### BUSY windows -/

/-- All a BUSY window can do at the port (R71): some STATUS reads at the head of the queue are answered with the STATUS of the
window, and everything behind them stays held. -/
theorem answerPolls_spec (v : Word) (p : List HostEvent) (k : Nat) :
    ∃ n, n ≤ k ∧ (answerPolls v p k).1 = List.replicate n (.data v) ∧ (answerPolls v p k).2 = p.drop n ∧
      ∀ e ∈ p.take n, e.isStatusRead = true := by
  induction p generalizing k with
  | nil => exact ⟨0, by simp [answerPolls]⟩
  | cons e rest ih =>
    by_cases he : e.isStatusRead
    · cases k with
      | zero => exact ⟨0, by simp [answerPolls, he]⟩
      | succ k =>
        obtain ⟨n, hn, h1, h2, h3⟩ := ih k
        refine ⟨n + 1, by omega, ?_, ?_, ?_⟩
        · simp [answerPolls, he, h1, List.replicate_succ]
        · simp [answerPolls, he, h2]
        · simpa [he] using h3
    · exact ⟨0, by simp [answerPolls, he]⟩

/-- With no STATUS read at the head of the queue, a BUSY window leaves the port as it is. -/
theorem answerPolls_of_no_poll {v : Word} {p : List HostEvent} {k : Nat}
    (h : ∀ e, p.head? = some e → e.isStatusRead = false) : answerPolls v p k = ([], p) := by
  cases p with
  | nil => rfl
  | cons e rest => simp [answerPolls, h e rfl]

@[simp] theorem State.busyWindow_sector (n : Nat) (s : State) : (s.busyWindow n).sector = s.sector := rfl
@[simp] theorem State.busyWindow_cmd (n : Nat) (s : State) : (s.busyWindow n).cmd = s.cmd := rfl
@[simp] theorem State.busyWindow_status (n : Nat) (s : State) : (s.busyWindow n).status = s.status := rfl
@[simp] theorem State.busyWindow_edcValue (n : Nat) (s : State) : (s.busyWindow n).edcValue = s.edcValue := rfl
@[simp] theorem State.busyWindow_edcSrc (n : Nat) (s : State) : (s.busyWindow n).edcSrc = s.edcSrc := rfl
@[simp] theorem State.busyWindow_edcLen (n : Nat) (s : State) : (s.busyWindow n).edcLen = s.edcLen := rfl
@[simp] theorem State.busyWindow_edcDst (n : Nat) (s : State) : (s.busyWindow n).edcDst = s.edcDst := rfl
@[simp] theorem State.busyWindow_seq (n : Nat) (s : State) : (s.busyWindow n).seq = s.seq := rfl
@[simp] theorem State.busyWindow_windows (n : Nat) (s : State) : (s.busyWindow n).windows = s.windows + 1 := rfl

/-- The port and the responses of a BUSY window (R71). -/
theorem State.busyWindow_port_responses (n : Nat) (s : State) :
    ∃ k, (s.busyWindow n).responses = s.responses ++ List.replicate k (.data s.status.toWord) ∧
      (s.busyWindow n).port = s.port.drop k ∧ ∀ e ∈ s.port.take k, e.isStatusRead = true := by
  obtain ⟨k, -, h1, h2, h3⟩ := answerPolls_spec s.status.toWord s.port (Config.pollsIn n s.windows)
  exact ⟨k, by simp [State.busyWindow, h1], by simp [State.busyWindow, h2], h3⟩

@[simp] theorem State.endInit_sector (s : State) : (s.endInit).sector = s.sector := rfl
@[simp] theorem State.endInit_cmd (s : State) : (s.endInit).cmd = s.cmd := rfl
@[simp] theorem State.endInit_status (s : State) : (s.endInit).status = s.status.initialised := rfl
@[simp] theorem State.endInit_edcValue (s : State) : (s.endInit).edcValue = s.edcValue := rfl
@[simp] theorem State.endInit_edcSrc (s : State) : (s.endInit).edcSrc = s.edcSrc := rfl
@[simp] theorem State.endInit_edcLen (s : State) : (s.endInit).edcLen = s.edcLen := rfl
@[simp] theorem State.endInit_edcDst (s : State) : (s.endInit).edcDst = s.edcDst := rfl
@[simp] theorem State.endInit_seq (s : State) : (s.endInit).seq = .idle := rfl
@[simp] theorem State.endInit_windows (s : State) : (s.endInit).windows = s.windows + 1 := rfl

/-- STATUS reads during INIT are answered, everything else is held (R71, R211). -/
theorem State.endInit_port_responses (s : State) :
    ∃ k, s.endInit.responses = s.responses ++ List.replicate k (.data s.status.toWord) ∧
      s.endInit.port = s.port.drop k ∧ ∀ e ∈ s.port.take k, e.isStatusRead = true :=
  s.busyWindow_port_responses Config.tInit

/-! ### Rejecting, starting and completing a command -/

@[simp] theorem State.clearOutcome_sector (s : State) : (s.clearOutcome).sector = s.sector := rfl
@[simp] theorem State.clearOutcome_cmd (s : State) : (s.clearOutcome).cmd = s.cmd := rfl
@[simp] theorem State.clearOutcome_status (s : State) : (s.clearOutcome).status = s.status.cleared := rfl
@[simp] theorem State.clearOutcome_edcValue (s : State) : (s.clearOutcome).edcValue = s.edcValue := rfl
@[simp] theorem State.clearOutcome_edcSrc (s : State) : (s.clearOutcome).edcSrc = s.edcSrc := rfl
@[simp] theorem State.clearOutcome_edcLen (s : State) : (s.clearOutcome).edcLen = s.edcLen := rfl
@[simp] theorem State.clearOutcome_edcDst (s : State) : (s.clearOutcome).edcDst = s.edcDst := rfl
@[simp] theorem State.clearOutcome_seq (s : State) : (s.clearOutcome).seq = s.seq := rfl
@[simp] theorem State.clearOutcome_port (s : State) : (s.clearOutcome).port = s.port := rfl
@[simp] theorem State.clearOutcome_responses (s : State) : (s.clearOutcome).responses = s.responses := rfl
@[simp] theorem State.clearOutcome_windows (s : State) : (s.clearOutcome).windows = s.windows := rfl

@[simp] theorem State.reject_sector (e : CommandError) (s : State) : (s.reject e).sector = s.sector := rfl
@[simp] theorem State.reject_cmd (e : CommandError) (s : State) : (s.reject e).cmd = s.cmd := rfl
@[simp] theorem State.reject_status (e : CommandError) (s : State) : (s.reject e).status = s.status.cleared.rejected e := rfl
@[simp] theorem State.reject_edcValue (e : CommandError) (s : State) : (s.reject e).edcValue = s.edcValue := rfl
@[simp] theorem State.reject_edcSrc (e : CommandError) (s : State) : (s.reject e).edcSrc = s.edcSrc := rfl
@[simp] theorem State.reject_edcLen (e : CommandError) (s : State) : (s.reject e).edcLen = s.edcLen := rfl
@[simp] theorem State.reject_edcDst (e : CommandError) (s : State) : (s.reject e).edcDst = s.edcDst := rfl
@[simp] theorem State.reject_seq (e : CommandError) (s : State) : (s.reject e).seq = s.seq := rfl
@[simp] theorem State.reject_port (e : CommandError) (s : State) : (s.reject e).port = s.port := rfl
@[simp] theorem State.reject_responses (e : CommandError) (s : State) : (s.reject e).responses = s.responses := rfl
@[simp] theorem State.reject_windows (e : CommandError) (s : State) : (s.reject e).windows = s.windows := rfl

@[simp] theorem State.start_sector (c : Instr) (s : State) : (s.start c).sector = s.sector := rfl
@[simp] theorem State.start_cmd (c : Instr) (s : State) : (s.start c).cmd = s.cmd := rfl
@[simp] theorem State.start_status (c : Instr) (s : State) : (s.start c).status = s.status.cleared.started := rfl
@[simp] theorem State.start_edcValue (c : Instr) (s : State) : (s.start c).edcValue = s.edcValue := rfl
@[simp] theorem State.start_edcSrc (c : Instr) (s : State) : (s.start c).edcSrc = s.edcSrc := rfl
@[simp] theorem State.start_edcLen (c : Instr) (s : State) : (s.start c).edcLen = s.edcLen := rfl
@[simp] theorem State.start_edcDst (c : Instr) (s : State) : (s.start c).edcDst = s.edcDst := rfl
@[simp] theorem State.start_seq (c : Instr) (s : State) : (s.start c).seq = .exec c := rfl
@[simp] theorem State.start_port (c : Instr) (s : State) : (s.start c).port = s.port := rfl
@[simp] theorem State.start_responses (c : Instr) (s : State) : (s.start c).responses = s.responses := rfl
@[simp] theorem State.start_windows (c : Instr) (s : State) : (s.start c).windows = s.windows := rfl

@[simp] theorem State.complete_sector (s : State) : (s.complete).sector = s.sector := rfl
@[simp] theorem State.complete_cmd (s : State) : (s.complete).cmd = s.cmd := rfl
@[simp] theorem State.complete_status (s : State) : (s.complete).status = s.status.completed := rfl
@[simp] theorem State.complete_edcValue (s : State) : (s.complete).edcValue = s.edcValue := rfl
@[simp] theorem State.complete_edcSrc (s : State) : (s.complete).edcSrc = s.edcSrc := rfl
@[simp] theorem State.complete_edcLen (s : State) : (s.complete).edcLen = s.edcLen := rfl
@[simp] theorem State.complete_edcDst (s : State) : (s.complete).edcDst = s.edcDst := rfl
@[simp] theorem State.complete_seq (s : State) : (s.complete).seq = .idle := rfl
@[simp] theorem State.complete_port (s : State) : (s.complete).port = s.port := rfl
@[simp] theorem State.complete_responses (s : State) : (s.complete).responses = s.responses := rfl
@[simp] theorem State.complete_windows (s : State) : (s.complete).windows = s.windows := rfl

/-- STATUS while a command runs reads 0x00000001: BUSY = 1 and every other field 0 (R27, R181). -/
theorem Status.toWord_started (st : Status) : st.cleared.started.toWord = 0x00000001#32 := by
  simp only [Status.toWord, Status.cleared, Status.started]
  decide

/-- STATUS after a completed command reads 0x00000002 (R181). -/
theorem Status.toWord_completed (st : Status) : st.cleared.started.completed.toWord = 0x00000002#32 := by
  simp only [Status.toWord, Status.cleared, Status.started, Status.completed]
  decide

/-! ### Reset -/

@[simp] theorem State.assertReset_sector (s : State) : (s.assertReset).sector = [] := rfl
@[simp] theorem State.assertReset_cmd (s : State) : (s.assertReset).cmd = 0#32 := rfl
@[simp] theorem State.assertReset_status (s : State) : (s.assertReset).status = ⟨true, false, false, 0#4⟩ := rfl
@[simp] theorem State.assertReset_edcValue (s : State) : (s.assertReset).edcValue = 0#32 := rfl
@[simp] theorem State.assertReset_edcSrc (s : State) : (s.assertReset).edcSrc = 0#32 := rfl
@[simp] theorem State.assertReset_edcLen (s : State) : (s.assertReset).edcLen = 0#32 := rfl
@[simp] theorem State.assertReset_edcDst (s : State) : (s.assertReset).edcDst = 0#32 := rfl
@[simp] theorem State.assertReset_seq (s : State) : (s.assertReset).seq = .init := rfl
@[simp] theorem State.assertReset_port (s : State) : (s.assertReset).port = s.port := rfl
@[simp] theorem State.assertReset_responses (s : State) : (s.assertReset).responses = s.responses := rfl
@[simp] theorem State.assertReset_windows (s : State) : (s.assertReset).windows = s.windows := rfl

end Sys2Proof.Machine
end

