-- ==== Sys2Proof/Laws/Ecc.lean ====
section
/-! SUPPORT. The parity encoders: the tables, the read set of a column, and for one pass, for the zero-address option and for
P followed by Q, what every byte of the buffer reads afterwards. -/

namespace Sys2Proof.Machine

/-! ### The tables -/

/-- Multiplication by α is linear over exclusive-or (R34). -/
theorem eccF_xor (i j : Byte) : eccF (i ^^^ j) = eccF i ^^^ eccF j := by
  unfold eccF
  simp only [BitVec.setWidth_xor, BitVec.shiftLeft_xor_distrib, BitVec.getLsbD_xor]
  refine BitVec.eq_of_getLsbD_eq (fun k _ => ?_)
  cases i.getLsbD 7 <;> cases j.getLsbD 7 <;> simp only [BitVec.getLsbD_xor, Bool.xor_false, Bool.xor_true,
    Bool.not_true, Bool.not_false, Bool.false_eq_true, if_true, if_false] <;>
    cases (BitVec.setWidth 8 (BitVec.setWidth 32 i <<< 1)).getLsbD k <;>
    cases (BitVec.setWidth 8 (BitVec.setWidth 32 j <<< 1)).getLsbD k <;>
    cases (BitVec.setWidth 8 Config.gfPoly).getLsbD k <;> simp

theorem eccF_zero : eccF 0#8 = 0#8 := by decide

/-- `ECC_B` undoes `i ↦ i XOR ECC_F[i]`, checked for every byte below `n`. -/
theorem eccB_checked : ((List.range 256).all fun n =>
    eccB (BitVec.ofNat 8 n ^^^ eccF (BitVec.ofNat 8 n)) == BitVec.ofNat 8 n) = true := by decide +kernel

/-- The document's invariant on the two tables (R35). -/
theorem eccB_xor_eccF (i : Byte) : eccB (i ^^^ eccF i) = i := by
  have h := List.all_eq_true.1 eccB_checked i.toNat (List.mem_range.2 i.isLt)
  simpa using h

/-- `i ↦ i XOR ECC_F[i]` reaches every byte (R35). -/
theorem exists_xor_eccF (y : Byte) : ∃ i : Byte, i ^^^ eccF i = y := by
  have hinj : Function.Injective (fun i : Byte => i ^^^ eccF i) := fun i j h => by
    have := congrArg eccB h
    simpa [eccB_xor_eccF] using this
  exact (Finite.injective_iff_surjective.1 hinj) y

/-- `ECC_B[y]` is `y` divided by α+1 (R35). -/
theorem eccB_divides (y : Byte) : eccB y ^^^ eccF (eccB y) = y := by
  obtain ⟨i, rfl⟩ := exists_xor_eccF y
  rw [eccB_xor_eccF]

/-! ### The read set of a column (R131) -/

/-- What the two fixed parameter sets have in common: every column starts inside the source, the wrap keeps it inside, and
the destination lies behind the source and inside the buffer. -/
structure EccParams.Fits (p : EccParams) : Prop where
  first : ∀ major, major < p.majorCount → p.firstIndex major < p.size
  inc   : p.minorInc ≤ p.size
  apart : eccSrc + p.size ≤ p.dst
  inside : p.dst + 2 * p.majorCount ≤ Config.sectorSize

theorem paramsP_fits : paramsP.Fits where
  first := by decide
  inc := by decide
  apart := by decide
  inside := by decide

theorem paramsQ_fits : paramsQ.Fits where
  first := by decide
  inc := by decide
  apart := by decide
  inside := by decide

@[simp] theorem EccParams.length_indicesFrom (p : EccParams) (n index : Nat) : (p.indicesFrom index n).length = n := by
  induction n generalizing index with
  | zero => rfl
  | succ n ih => simp [EccParams.indicesFrom, ih]

@[simp] theorem Memory.length_eccColumn (m : Memory) (p : EccParams) (major : Nat) :
    (m.eccColumn p major).length = p.minorCount := by
  simp [Memory.eccColumn, EccParams.columnIndices]

theorem EccParams.indicesFrom_lt (p : EccParams) (hinc : p.minorInc ≤ p.size) {index : Nat} (h : index < p.size) (n : Nat) :
    ∀ j ∈ p.indicesFrom index n, j < p.size := by
  induction n generalizing index with
  | zero => simp [EccParams.indicesFrom]
  | succ n ih =>
    intro j hj
    rcases List.mem_cons.1 hj with rfl | hj
    · exact h
    · refine ih (index := p.nextIndex index) ?_ j hj
      unfold EccParams.nextIndex
      split <;> omega

/-- A column reads source indices below `size` only. -/
theorem EccParams.Fits.columnIndices_lt {p : EccParams} (hp : p.Fits) {major : Nat} (h : major < p.majorCount) :
    ∀ j ∈ p.columnIndices major, j < p.size :=
  p.indicesFrom_lt hp.inc (hp.first major h) _

/-- Buffers that agree on the source of a pass have the same columns. -/
theorem Memory.eccColumn_congr {m m' : Memory} {p : EccParams} (hp : p.Fits) {major : Nat} (hmaj : major < p.majorCount)
    (h : ∀ a, eccSrc ≤ a → a < eccSrc + p.size → m.read a = m'.read a) : m.eccColumn p major = m'.eccColumn p major := by
  unfold Memory.eccColumn
  refine List.map_congr_left (fun j hj => ?_)
  have := hp.columnIndices_lt hmaj j hj
  exact h _ (by omega) (by omega)

/-! ### One pass -/

theorem Memory.wf_eccWriteColumn {m : Memory} (h : m.wf) (p : EccParams) (major : Nat) :
    (Memory.eccWriteColumn p m major).wf :=
  Memory.wf_write (Memory.wf_write h _ _) _ _

/-- What every byte reads after the first `k` columns of a pass. -/
theorem Memory.read_eccColumns {m : Memory} (h : m.wf) {p : EccParams} (hp : p.Fits) (k : Nat) (hk : k ≤ p.majorCount) :
    ((List.range k).foldl (Memory.eccWriteColumn p) m).wf ∧
    ∀ a, ((List.range k).foldl (Memory.eccWriteColumn p) m).read a =
      if p.dst ≤ a ∧ a < p.dst + k then parity0 (m.eccColumn p (a - p.dst))
      else if p.dst + p.majorCount ≤ a ∧ a < p.dst + p.majorCount + k then
        parity1 (m.eccColumn p (a - (p.dst + p.majorCount)))
      else m.read a := by
  induction k with
  | zero =>
    refine ⟨h, fun a => ?_⟩
    rw [if_neg (by omega), if_neg (by omega)]
    rfl
  | succ k ih =>
    obtain ⟨hwf, hr⟩ := ih (by omega)
    simp only [List.range_succ, List.foldl_append, List.foldl_cons, List.foldl_nil]
    have hin := hp.inside
    have hap := hp.apart
    have hcol : ((List.range k).foldl (Memory.eccWriteColumn p) m).eccColumn p k = m.eccColumn p k :=
      Memory.eccColumn_congr hp (by omega) (fun a h1 h2 => by
        rw [hr, if_neg (by omega), if_neg (by omega)])
    refine ⟨Memory.wf_eccWriteColumn hwf p k, fun a => ?_⟩
    rw [Memory.eccWriteColumn, hcol, Memory.read_write (Memory.wf_write hwf _ _), Memory.read_write hwf, hr]
    by_cases h1 : a = p.dst + k + p.majorCount
    · rw [if_pos ⟨h1, by omega⟩, if_neg (by omega), if_pos (by omega),
        show a - (p.dst + p.majorCount) = k by omega]
    · rw [if_neg (by omega)]
      by_cases h2 : a = p.dst + k
      · rw [if_pos ⟨h2, by omega⟩, if_pos (by omega), show a - p.dst = k by omega]
      · rw [if_neg (by omega)]
        by_cases h3 : p.dst ≤ a ∧ a < p.dst + k
        · rw [if_pos h3, if_pos (by omega)]
        · rw [if_neg h3, if_neg (show ¬ (p.dst ≤ a ∧ a < p.dst + (k + 1)) by omega)]
          by_cases h4 : p.dst + p.majorCount ≤ a ∧ a < p.dst + p.majorCount + k
          · rw [if_pos h4, if_pos (by omega)]
          · rw [if_neg h4, if_neg (by omega)]

theorem Memory.wf_eccBlock {m : Memory} (h : m.wf) {p : EccParams} (hp : p.Fits) : (m.eccBlock p).wf :=
  (Memory.read_eccColumns h hp p.majorCount (Nat.le_refl _)).1

/-- All that a pass does (R131, R140): the parity bytes of every column of the buffer as it stood before the pass, and no
other byte. -/
theorem Memory.read_eccBlock {m : Memory} (h : m.wf) {p : EccParams} (hp : p.Fits) (a : Nat) :
    (m.eccBlock p).read a =
      if p.dst ≤ a ∧ a < p.dst + p.majorCount then parity0 (m.eccColumn p (a - p.dst))
      else if p.dst + p.majorCount ≤ a ∧ a < p.dst + p.majorCount + p.majorCount then
        parity1 (m.eccColumn p (a - (p.dst + p.majorCount)))
      else m.read a :=
  (Memory.read_eccColumns h hp p.majorCount (Nat.le_refl _)).2 a

/-- A pass changes no byte outside its destination. -/
theorem Memory.read_eccBlock_outside {m : Memory} (h : m.wf) {p : EccParams} (hp : p.Fits) {a : Nat}
    (ha : a < p.dst ∨ p.dst + 2 * p.majorCount ≤ a) : (m.eccBlock p).read a = m.read a := by
  rw [Memory.read_eccBlock h hp, if_neg (by omega), if_neg (by omega)]

theorem Memory.wf_eccPQ {m : Memory} (h : m.wf) : m.eccPQ.wf :=
  Memory.wf_eccBlock (Memory.wf_eccBlock h paramsP_fits) paramsQ_fits

/-- P and Q together change no byte below 0x81C. -/
theorem Memory.read_eccPQ_outside {m : Memory} (h : m.wf) {a : Nat} (ha : a < 0x81C ∨ 0x930 ≤ a) :
    m.eccPQ.read a = m.read a := by
  have hP : paramsP.dst = 0x81C ∧ paramsP.majorCount = 86 := ⟨rfl, rfl⟩
  have hQ : paramsQ.dst = 0x8C8 ∧ paramsQ.majorCount = 52 := ⟨rfl, rfl⟩
  rw [Memory.eccPQ, Memory.read_eccBlock_outside (Memory.wf_eccBlock h paramsP_fits) paramsQ_fits (by omega),
    Memory.read_eccBlock_outside h paramsP_fits (by omega)]

/-! ### The zero-address option (R136) -/

/-- The buffer that a pass with ZA = 1 sees. -/
theorem Memory.read_zeroed {m : Memory} (h : m.wf) (a : Nat) :
    (m.writeBytes eccSrc [0#8, 0#8, 0#8, 0#8]).read a = if 0x00C ≤ a ∧ a < 0x010 then 0#8 else m.read a := by
  have he : eccSrc = 12 := rfl
  have hl : [0#8, 0#8, 0#8, 0#8].length = 4 := rfl
  rw [Memory.read_writeBytes h _ _ (by decide)]
  by_cases ha : 12 ≤ a ∧ a < 16
  · rw [if_pos (by omega), if_pos ha]
    rcases (by omega : a = 12 ∨ a = 13 ∨ a = 14 ∨ a = 15) with rfl | rfl | rfl | rfl <;> rfl
  · rw [if_neg (by omega), if_neg ha]

theorem Memory.wf_withZeroAddress {m : Memory} (h : m.wf) (za : Bool) {body : Memory → Memory}
    (hb : ∀ m : Memory, m.wf → (body m).wf) : (m.withZeroAddress za body).wf := by
  unfold Memory.withZeroAddress
  split
  · exact Memory.wf_writeBytes (hb _ (Memory.wf_writeBytes h _ _)) _ _
  · exact hb m h

/-- All that the option does: with ZA = 1 the bytes 0x00C to 0x00F end as they began, and every other byte is what the body
makes of the buffer with those four bytes zero. -/
theorem Memory.read_withZeroAddress {m : Memory} (h : m.wf) (za : Bool) {body : Memory → Memory}
    (hb : ∀ m : Memory, m.wf → (body m).wf) (a : Nat) :
    (m.withZeroAddress za body).read a =
      if za = true then
        if 0x00C ≤ a ∧ a < 0x010 then m.read a
        else (body (m.writeBytes eccSrc [0#8, 0#8, 0#8, 0#8])).read a
      else (body m).read a := by
  unfold Memory.withZeroAddress
  by_cases hz : za = true
  · rw [if_pos hz, if_pos hz,
      Memory.read_writeBytes (hb _ (Memory.wf_writeBytes h _ _)) _ _ (by rw [Memory.length_readBytes]; decide),
      Memory.length_readBytes]
    have he : eccSrc = 12 := rfl
    by_cases ha : 12 ≤ a ∧ a < 16
    · rw [if_pos (by omega), if_pos ha, Memory.getD_readBytes _ _ _ _ (by omega),
        show eccSrc + (a - eccSrc) = a by omega]
    · rw [if_neg (by omega), if_neg ha]
  · rw [if_neg hz, if_neg hz]

/-- Whatever ZA, a body that leaves the bytes `a` alone leaves them alone under the option too. -/
theorem Memory.read_withZeroAddress_outside {m : Memory} (h : m.wf) (za : Bool) {body : Memory → Memory} {a : Nat}
    (hb : ∀ m : Memory, m.wf → (body m).wf) (hout : ∀ m : Memory, m.wf → (body m).read a = m.read a) :
    (m.withZeroAddress za body).read a = m.read a := by
  rw [Memory.read_withZeroAddress h za hb]
  split
  · split
    · rfl
    · rw [hout _ (Memory.wf_writeBytes h _ _), Memory.read_zeroed h, if_neg (by assumption)]
  · exact hout m h

/-! ### `mapSector` -/

@[simp] theorem State.mapSector_sector (f : Memory → Memory) (s : State) : (s.mapSector f).sector = f s.sector := rfl
@[simp] theorem State.mapSector_cmd (f : Memory → Memory) (s : State) : (s.mapSector f).cmd = s.cmd := rfl
@[simp] theorem State.mapSector_status (f : Memory → Memory) (s : State) : (s.mapSector f).status = s.status := rfl
@[simp] theorem State.mapSector_edcValue (f : Memory → Memory) (s : State) : (s.mapSector f).edcValue = s.edcValue := rfl
@[simp] theorem State.mapSector_edcSrc (f : Memory → Memory) (s : State) : (s.mapSector f).edcSrc = s.edcSrc := rfl
@[simp] theorem State.mapSector_edcLen (f : Memory → Memory) (s : State) : (s.mapSector f).edcLen = s.edcLen := rfl
@[simp] theorem State.mapSector_edcDst (f : Memory → Memory) (s : State) : (s.mapSector f).edcDst = s.edcDst := rfl
@[simp] theorem State.mapSector_seq (f : Memory → Memory) (s : State) : (s.mapSector f).seq = s.seq := rfl
@[simp] theorem State.mapSector_port (f : Memory → Memory) (s : State) : (s.mapSector f).port = s.port := rfl
@[simp] theorem State.mapSector_responses (f : Memory → Memory) (s : State) : (s.mapSector f).responses = s.responses := rfl
@[simp] theorem State.mapSector_windows (f : Memory → Memory) (s : State) : (s.mapSector f).windows = s.windows := rfl

end Sys2Proof.Machine
end

