-- ==== Sys2Proof/Laws/Edc.lean ====
section
/-! SUPPORT. The EDC unit: the table and one byte's step are linear over exclusive-or, a zero byte keeps an accumulator of 0, and
what `edcStore` does to each field and to the buffer. -/

namespace Sys2Proof.Machine

/-- One bit step is linear over exclusive-or (R33). -/
theorem crcBit_xor (u v : Word) : crcBit (u ^^^ v) = crcBit u ^^^ crcBit v := by
  unfold crcBit
  rw [BitVec.ushiftRight_xor_distrib, BitVec.getLsbD_xor]
  refine BitVec.eq_of_getLsbD_eq (fun i _ => ?_)
  cases u.getLsbD 0 <;> cases v.getLsbD 0 <;> simp only [BitVec.getLsbD_xor, Bool.xor_false, Bool.xor_true,
    Bool.not_true, Bool.not_false, Bool.false_eq_true, if_true, if_false] <;>
    cases (u >>> 1).getLsbD i <;> cases (v >>> 1).getLsbD i <;> cases Config.edcPoly.getLsbD i <;> simp

/-- Any number of bit steps is linear over exclusive-or. -/
theorem repeat_crcBit_xor (n : Nat) (u v : Word) :
    Nat.repeat crcBit n (u ^^^ v) = Nat.repeat crcBit n u ^^^ Nat.repeat crcBit n v := by
  induction n with
  | zero => rfl
  | succ n ih => simp only [Nat.repeat, ih, crcBit_xor]

/-- `EDC_LUT` is linear over exclusive-or. -/
theorem edcLut_xor (i j : Byte) : edcLut (i ^^^ j) = edcLut i ^^^ edcLut j := by
  simp only [edcLut, BitVec.setWidth_xor, repeat_crcBit_xor]

theorem edcLut_zero : edcLut 0#8 = 0#32 := by decide

/-- Exclusive-or of four words, paired the other way. -/
theorem xor_xor_xor_comm {n : Nat} (a b c d : BitVec n) : (a ^^^ b) ^^^ (c ^^^ d) = (a ^^^ c) ^^^ (b ^^^ d) := by
  refine BitVec.eq_of_getLsbD_eq (fun i _ => ?_)
  simp only [BitVec.getLsbD_xor]
  cases a.getLsbD i <;> cases b.getLsbD i <;> cases c.getLsbD i <;> cases d.getLsbD i <;> rfl

/-- One byte's step is linear over exclusive-or in the accumulator and the byte together (R111). -/
theorem edcStep_xor (e f : Word) (a b : Byte) : edcStep (e ^^^ f) (a ^^^ b) = edcStep e a ^^^ edcStep f b := by
  simp only [edcStep, BitVec.setWidth_xor, xor_xor_xor_comm e f]
  rw [BitVec.extractLsb'_xor, edcLut_xor, BitVec.ushiftRight_xor_distrib, xor_xor_xor_comm]

/-- A zero byte leaves an accumulator of 0 (R113). -/
theorem edcStep_zero : edcStep 0#32 0#8 = 0#32 := by decide

/-- The EDC of an extended region continues from the EDC of the region. -/
theorem edcOfBytes_append (as bs : List Byte) : edcOfBytes (as ++ bs) = bs.foldl edcStep (edcOfBytes as) := by
  simp [edcOfBytes]

/-- Buffers that agree on a region have the same EDC there. -/
theorem edcCompute_congr {m m' : Memory} {o n : Nat} (h : ∀ a, o ≤ a → a < o + n → m.read a = m'.read a) :
    edcCompute m o n = edcCompute m' o n := by
  simp only [edcCompute, Memory.readBytes_congr h]

/-! ### `edcStore` (R112) -/

@[simp] theorem State.edcStore_sector (r : EdcRegion) (s : State) : (s.edcStore r).sector = s.sector.storeLE32 r.dst (edcCompute s.sector r.start r.len) := rfl
@[simp] theorem State.edcStore_cmd (r : EdcRegion) (s : State) : (s.edcStore r).cmd = s.cmd := rfl
@[simp] theorem State.edcStore_status (r : EdcRegion) (s : State) : (s.edcStore r).status = s.status := rfl
@[simp] theorem State.edcStore_edcValue (r : EdcRegion) (s : State) : (s.edcStore r).edcValue = edcCompute s.sector r.start r.len := rfl
@[simp] theorem State.edcStore_edcSrc (r : EdcRegion) (s : State) : (s.edcStore r).edcSrc = s.edcSrc := rfl
@[simp] theorem State.edcStore_edcLen (r : EdcRegion) (s : State) : (s.edcStore r).edcLen = s.edcLen := rfl
@[simp] theorem State.edcStore_edcDst (r : EdcRegion) (s : State) : (s.edcStore r).edcDst = s.edcDst := rfl
@[simp] theorem State.edcStore_seq (r : EdcRegion) (s : State) : (s.edcStore r).seq = s.seq := rfl
@[simp] theorem State.edcStore_port (r : EdcRegion) (s : State) : (s.edcStore r).port = s.port := rfl
@[simp] theorem State.edcStore_responses (r : EdcRegion) (s : State) : (s.edcStore r).responses = s.responses := rfl
@[simp] theorem State.edcStore_windows (r : EdcRegion) (s : State) : (s.edcStore r).windows = s.windows := rfl

/-- Outside the four bytes of its destination `edcStore` changes nothing. -/
theorem State.read_edcStore_outside {s : State} (h : s.sector.wf) (r : EdcRegion) {a : Nat}
    (ha : a < r.dst ∨ r.dst + 4 ≤ a) : (s.edcStore r).sector.read a = s.sector.read a :=
  Memory.read_storeLE32_outside h r.dst _ ha

theorem State.wf_edcStore {s : State} (h : s.sector.wf) (r : EdcRegion) : (s.edcStore r).sector.wf :=
  Memory.wf_storeLE32 h r.dst _

/-- The range check of R182, as inequalities. -/
theorem EdcRegion.inRange_iff (r : EdcRegion) :
    r.inRange = true ↔ r.start ≤ 2352 ∧ r.len ≤ 2352 - r.start ∧ r.dst ≤ 2348 := by
  simp only [EdcRegion.inRange, Bool.and_eq_true, decide_eq_true_eq, and_assoc]
  exact Iff.rfl

end Sys2Proof.Machine
end

