-- ==== Sys2Proof/Laws/Exec.lean ====
section
/-! SUPPORT. What a command can do: `exec` as one of two cases, the frame of every command's body, and the stored form kept. -/

namespace Sys2Proof.Machine

/-! ### The layout multiplexer -/

@[simp] theorem State.generate_cmd (l : Layout) (s : State) : (s.generate l).cmd = s.cmd := by
  obtain ⟨e, z, c⟩ := l
  cases e <;> cases z <;> cases c <;> rfl

@[simp] theorem State.generate_status (l : Layout) (s : State) : (s.generate l).status = s.status := by
  obtain ⟨e, z, c⟩ := l
  cases e <;> cases z <;> cases c <;> rfl

@[simp] theorem State.generate_edcSrc (l : Layout) (s : State) : (s.generate l).edcSrc = s.edcSrc := by
  obtain ⟨e, z, c⟩ := l
  cases e <;> cases z <;> cases c <;> rfl

@[simp] theorem State.generate_edcLen (l : Layout) (s : State) : (s.generate l).edcLen = s.edcLen := by
  obtain ⟨e, z, c⟩ := l
  cases e <;> cases z <;> cases c <;> rfl

@[simp] theorem State.generate_edcDst (l : Layout) (s : State) : (s.generate l).edcDst = s.edcDst := by
  obtain ⟨e, z, c⟩ := l
  cases e <;> cases z <;> cases c <;> rfl

@[simp] theorem State.generate_seq (l : Layout) (s : State) : (s.generate l).seq = s.seq := by
  obtain ⟨e, z, c⟩ := l
  cases e <;> cases z <;> cases c <;> rfl

@[simp] theorem State.generate_port (l : Layout) (s : State) : (s.generate l).port = s.port := by
  obtain ⟨e, z, c⟩ := l
  cases e <;> cases z <;> cases c <;> rfl

@[simp] theorem State.generate_responses (l : Layout) (s : State) : (s.generate l).responses = s.responses := by
  obtain ⟨e, z, c⟩ := l
  cases e <;> cases z <;> cases c <;> rfl

@[simp] theorem State.generate_windows (l : Layout) (s : State) : (s.generate l).windows = s.windows := by
  obtain ⟨e, z, c⟩ := l
  cases e <;> cases z <;> cases c <;> rfl

theorem State.wf_generate {s : State} (h : s.sector.wf) (l : Layout) : (s.generate l).sector.wf := by
  obtain ⟨e, z, c⟩ := l
  have h1 : ∀ r, (s.edcStore r).sector.wf := State.wf_edcStore h
  have h2 : ∀ m : Memory, m.wf → (m.writeBytes zeroPadOffset (List.replicate zeroPadLength 0#8)).wf :=
    fun m hm => Memory.wf_writeBytes hm _ _
  have h3 : ∀ (za : Bool) (m : Memory), m.wf → (m.withZeroAddress za Memory.eccPQ).wf :=
    fun za m hm => Memory.wf_withZeroAddress hm za (fun _ h => Memory.wf_eccPQ h)
  cases e with
  | none =>
    cases z <;> cases c <;> simp only [State.generate, State.mapSector_sector, Bool.false_eq_true, if_true, if_false]
    · exact h
    · exact h3 _ _ h
    · exact h2 _ h
    · exact h3 _ _ (h2 _ h)
  | some r =>
    cases z <;> cases c <;> simp only [State.generate, State.mapSector_sector, Bool.false_eq_true, if_true, if_false]
    · exact h1 r
    · exact h3 _ _ (h1 r)
    · exact h2 _ (h1 r)
    · exact h3 _ _ (h2 _ (h1 r))

/-! ### A command's body -/

/-- The pseudocode of each command, as the meanings give it. -/
def commandBody : Instr → State → State
  | .nop => id
  | .genT0 => State.generate layoutT0
  | .genT1 => State.generate layoutT1
  | .genT2 => State.generate layoutT2
  | .genT3 => State.generate layoutT3
  | .edc => fun t => t.edcStore t.edcRegion
  | .eccp za => State.mapSector (Memory.withZeroAddress za (Memory.eccBlock paramsP))
  | .eccq za => State.mapSector (Memory.withZeroAddress za (Memory.eccBlock paramsQ))
  | .eccpq za => State.mapSector (Memory.withZeroAddress za Memory.eccPQ)

@[simp] theorem commandBody_cmd (i : Instr) (s : State) : (commandBody i s).cmd = s.cmd := by
  cases i <;> simp [commandBody]

@[simp] theorem commandBody_status (i : Instr) (s : State) : (commandBody i s).status = s.status := by
  cases i <;> simp [commandBody]

@[simp] theorem commandBody_edcSrc (i : Instr) (s : State) : (commandBody i s).edcSrc = s.edcSrc := by
  cases i <;> simp [commandBody]

@[simp] theorem commandBody_edcLen (i : Instr) (s : State) : (commandBody i s).edcLen = s.edcLen := by
  cases i <;> simp [commandBody]

@[simp] theorem commandBody_edcDst (i : Instr) (s : State) : (commandBody i s).edcDst = s.edcDst := by
  cases i <;> simp [commandBody]

@[simp] theorem commandBody_seq (i : Instr) (s : State) : (commandBody i s).seq = s.seq := by
  cases i <;> simp [commandBody]

@[simp] theorem commandBody_port (i : Instr) (s : State) : (commandBody i s).port = s.port := by
  cases i <;> simp [commandBody]

@[simp] theorem commandBody_responses (i : Instr) (s : State) : (commandBody i s).responses = s.responses := by
  cases i <;> simp [commandBody]

@[simp] theorem commandBody_windows (i : Instr) (s : State) : (commandBody i s).windows = s.windows := by
  cases i <;> simp [commandBody]

/-- The sector a body leaves depends on the sector and the operand registers alone, and so does EDC_VALUE. -/
theorem commandBody_congr (i : Instr) {s t : State} (hs : s.sector = t.sector) (h1 : s.edcSrc = t.edcSrc)
    (h2 : s.edcLen = t.edcLen) (h3 : s.edcDst = t.edcDst) (h4 : s.edcValue = t.edcValue) :
    (commandBody i s).sector = (commandBody i t).sector ∧ (commandBody i s).edcValue = (commandBody i t).edcValue := by
  cases i <;>
    simp [commandBody, State.generate, layoutT0, layoutT1, layoutT2, layoutT3, State.edcRegion, hs, h1, h2, h3, h4]

/-- Every body keeps the stored form. -/
theorem wf_commandBody (i : Instr) {s : State} (h : s.sector.wf) : (commandBody i s).sector.wf := by
  cases i with
  | nop => exact h
  | genT0 => exact State.wf_generate h layoutT0
  | genT1 => exact State.wf_generate h layoutT1
  | genT2 => exact State.wf_generate h layoutT2
  | genT3 => exact State.wf_generate h layoutT3
  | edc => exact State.wf_edcStore h s.edcRegion
  | eccp za => exact Memory.wf_withZeroAddress h za (fun _ h => Memory.wf_eccBlock h paramsP_fits)
  | eccq za => exact Memory.wf_withZeroAddress h za (fun _ h => Memory.wf_eccBlock h paramsQ_fits)
  | eccpq za => exact Memory.wf_withZeroAddress h za (fun _ h => Memory.wf_eccPQ h)

/-! ### `exec` -/

/-- The one command that can be rejected once it is decoded (R180, R182). -/
def commandRejected (i : Instr) (s : State) : Prop := i = .edc ∧ s.edcRegion.inRange = false

/-- Every command either is rejected with EDC_RANGE or runs from IDLE back to IDLE (R181, R182). -/
theorem exec_cases (i : Instr) (s : State) :
    (commandRejected i s ∧ exec i s = .next (s.reject .edcRange)) ∨
    (¬ commandRejected i s ∧ exec i s = .next (s.runCommand i (commandBody i))) := by
  cases i with
  | edc =>
    by_cases h : s.edcRegion.inRange = true
    · refine .inr ⟨by simp [commandRejected, h], ?_⟩
      simp [exec, execEdc, h, commandBody]
    · refine .inl ⟨by simpa [commandRejected] using h, ?_⟩
      simp [exec, execEdc, h]
  | nop => exact .inr ⟨by simp [commandRejected], by simp only [exec, execNop, commandBody]⟩
  | genT0 => exact .inr ⟨by simp [commandRejected], by simp only [exec, execGenT0, commandBody]⟩
  | genT1 => exact .inr ⟨by simp [commandRejected], by simp only [exec, execGenT1, commandBody]⟩
  | genT2 => exact .inr ⟨by simp [commandRejected], by simp only [exec, execGenT2, commandBody]⟩
  | genT3 => exact .inr ⟨by simp [commandRejected], by simp only [exec, execGenT3, commandBody]⟩
  | eccp za => exact .inr ⟨by simp [commandRejected], by simp only [exec, execEccp, commandBody]⟩
  | eccq za => exact .inr ⟨by simp [commandRejected], by simp only [exec, execEccq, commandBody]⟩
  | eccpq za => exact .inr ⟨by simp [commandRejected], by simp only [exec, execEccpq, commandBody]⟩

/-- All that running an accepted command does. -/
theorem State.runCommand_spec (i : Instr) (s : State) :
    (s.runCommand i (commandBody i)).sector = (commandBody i s).sector ∧
    (s.runCommand i (commandBody i)).edcValue = (commandBody i s).edcValue ∧
    (s.runCommand i (commandBody i)).cmd = s.cmd ∧
    (s.runCommand i (commandBody i)).edcSrc = s.edcSrc ∧
    (s.runCommand i (commandBody i)).edcLen = s.edcLen ∧
    (s.runCommand i (commandBody i)).edcDst = s.edcDst ∧
    (s.runCommand i (commandBody i)).seq = .idle ∧
    (s.runCommand i (commandBody i)).status = ⟨false, true, false, 0#4⟩ ∧
    (s.runCommand i (commandBody i)).windows = s.windows + 1 ∧
    ∃ k, (s.runCommand i (commandBody i)).responses = s.responses ++ List.replicate k (.data 0x00000001#32) ∧
      (s.runCommand i (commandBody i)).port = s.port.drop k ∧ ∀ e ∈ s.port.take k, e.isStatusRead = true := by
  have hc := commandBody_congr i (s := (s.start i).busyWindow (Config.tCmd i)) (t := s) (by simp) (by simp) (by simp)
    (by simp) (by simp)
  obtain ⟨k, h1, h2, h3⟩ := (s.start i).busyWindow_port_responses (Config.tCmd i)
  refine ⟨by simpa [State.runCommand] using hc.1, by simpa [State.runCommand] using hc.2, by simp [State.runCommand],
    by simp [State.runCommand], by simp [State.runCommand], by simp [State.runCommand], by simp [State.runCommand], ?_,
    by simp [State.runCommand], k, ?_, ?_, by simpa using h3⟩
  · simp [State.runCommand, Status.completed, Status.started, Status.cleared]
  · simpa [State.runCommand, Status.toWord_started] using h1
  · simpa [State.runCommand] using h2

end Sys2Proof.Machine
end

