-- ==== Sys2Proof/Laws/PerInstr.lean ====
section
/-! SUPPORT. Statements about every constructor of `Instr`, one lemma each: a command's word is well formed and is accepted by
the row of R93 that has the command's mnemonic, and by no other row. -/

namespace Sys2Proof.Laws.EncodedWordLegal

/-- The mnemonic of spec/opcode_table.json for a command. -/
def mnemonic : Instr → String
  | .nop => "NOP"
  | .genT0 => "GEN.T0"
  | .genT1 => "GEN.T1"
  | .genT2 => "GEN.T2"
  | .genT3 => "GEN.T3"
  | .edc => "EDC"
  | .eccp _ => "ECCP"
  | .eccq _ => "ECCQ"
  | .eccpq _ => "ECCPQ"

/-- The command's word is legal, by the row of its mnemonic and by that row alone (R93, R98). -/
def Statement (i : Instr) : Prop :=
  i.wf = true ∧ commandWordWf (encode i) = true ∧
    (opcodeTable.filter (fun r => r.accepts (encode i))).map (·.mnemonic) = [mnemonic i]

theorem nop : Statement .nop := by unfold Statement; decide
theorem genT0 : Statement .genT0 := by unfold Statement; decide
theorem genT1 : Statement .genT1 := by unfold Statement; decide
theorem genT2 : Statement .genT2 := by unfold Statement; decide
theorem genT3 : Statement .genT3 := by unfold Statement; decide
theorem edc : Statement .edc := by unfold Statement; decide
theorem eccp (za : Bool) : Statement (.eccp za) := by cases za <;> (unfold Statement; decide)
theorem eccq (za : Bool) : Statement (.eccq za) := by cases za <;> (unfold Statement; decide)
theorem eccpq (za : Bool) : Statement (.eccpq za) := by cases za <;> (unfold Statement; decide)

end Sys2Proof.Laws.EncodedWordLegal
end

