-- ==== Sys2Proof/Laws/Step.lean ====
section
/-! SUPPORT. All that one step can do, as one inversion lemma, and the field lemmas of the port's stores. -/

namespace Sys2Proof.Machine

@[simp] theorem isStatusRead_read (off : Offset) (size : Nat) :
    (HostEvent.access (.read off size)).isStatusRead = (off == statusOffset && size == 4) := by
  simp [HostEvent.isStatusRead, Bool.beq_eq_decide_eq, Bool.decide_and]

@[simp] theorem State.readReg_setPort (s : State) (p : List HostEvent) (r : Reg) : (s.setPort p).readReg r = s.readReg r := by
  cases r <;> rfl

/-- What a read gives does not depend on what else waits at the port. -/
@[simp] theorem State.readAt_setPort (s : State) (p : List HostEvent) (off : Offset) (size : Nat) :
    (s.setPort p).readAt off size = s.readAt off size := by
  simp only [State.readAt, State.readWord, State.readByte, State.setPort_sector, State.readReg_setPort]

/-- What an accepted write stores: a sector byte or word, one of the registers CMD, EDC_SRC, EDC_LEN and EDC_DST, or
nothing (R64, R66, R68). -/
theorem State.storeAt_cases (s : State) (off : Offset) (size : Nat) (v : Word) :
    s.storeAt off size v = s ∨
    (windowOf off = .sector ∧ size = 4 ∧ s.storeAt off size v = s.setSector (s.sector.storeLE32 off.toNat v)) ∨
    (windowOf off = .sector ∧ size ≠ 4 ∧
      s.storeAt off size v = s.setSector (s.sector.write off.toNat (v.extractLsb' 0 8))) ∨
    (windowOf off = .registers ∧ regOf off = .cmd ∧ s.storeAt off size v = s.setCmd v) ∨
    (windowOf off = .registers ∧ regOf off = .edcSrc ∧ s.storeAt off size v = s.setEdcSrc v) ∨
    (windowOf off = .registers ∧ regOf off = .edcLen ∧ s.storeAt off size v = s.setEdcLen v) ∨
    (windowOf off = .registers ∧ regOf off = .edcDst ∧ s.storeAt off size v = s.setEdcDst v) := by
  unfold State.storeAt
  cases hw : windowOf off <;> simp only [reduceCtorEq, true_and, false_and, or_false, false_or]
  · by_cases h4 : size = 4 <;> simp [h4]
  · cases hr : regOf off <;> simp [State.writeReg]

/-- An accepted write keeps the buffer's stored form. -/
theorem State.wf_storeAt {s : State} (h : s.sector.wf) (off : Offset) (size : Nat) (v : Word) :
    (s.storeAt off size v).sector.wf := by
  rcases s.storeAt_cases off size v with e | ⟨-, -, e⟩ | ⟨-, -, e⟩ | ⟨-, -, e⟩ | ⟨-, -, e⟩ | ⟨-, -, e⟩ | ⟨-, -, e⟩ <;> rw [e]
  · exact h
  · rw [State.setSector_sector]
    exact Memory.wf_storeLE32 h _ _
  · rw [State.setSector_sector]
    exact Memory.wf_write h _ _
  all_goals exact h

@[simp] theorem State.storeAt_status (s : State) (off : Offset) (size : Nat) (v : Word) :
    (s.storeAt off size v).status = s.status := by
  rcases s.storeAt_cases off size v with e | ⟨-, -, e⟩ | ⟨-, -, e⟩ | ⟨-, -, e⟩ | ⟨-, -, e⟩ | ⟨-, -, e⟩ | ⟨-, -, e⟩ <;> simp [e]

@[simp] theorem State.storeAt_edcValue (s : State) (off : Offset) (size : Nat) (v : Word) :
    (s.storeAt off size v).edcValue = s.edcValue := by
  rcases s.storeAt_cases off size v with e | ⟨-, -, e⟩ | ⟨-, -, e⟩ | ⟨-, -, e⟩ | ⟨-, -, e⟩ | ⟨-, -, e⟩ | ⟨-, -, e⟩ <;> simp [e]

@[simp] theorem State.storeAt_seq (s : State) (off : Offset) (size : Nat) (v : Word) :
    (s.storeAt off size v).seq = s.seq := by
  rcases s.storeAt_cases off size v with e | ⟨-, -, e⟩ | ⟨-, -, e⟩ | ⟨-, -, e⟩ | ⟨-, -, e⟩ | ⟨-, -, e⟩ | ⟨-, -, e⟩ <;> simp [e]

@[simp] theorem State.storeAt_port (s : State) (off : Offset) (size : Nat) (v : Word) :
    (s.storeAt off size v).port = s.port := by
  rcases s.storeAt_cases off size v with e | ⟨-, -, e⟩ | ⟨-, -, e⟩ | ⟨-, -, e⟩ | ⟨-, -, e⟩ | ⟨-, -, e⟩ | ⟨-, -, e⟩ <;> simp [e]

@[simp] theorem State.storeAt_responses (s : State) (off : Offset) (size : Nat) (v : Word) :
    (s.storeAt off size v).responses = s.responses := by
  rcases s.storeAt_cases off size v with e | ⟨-, -, e⟩ | ⟨-, -, e⟩ | ⟨-, -, e⟩ | ⟨-, -, e⟩ | ⟨-, -, e⟩ | ⟨-, -, e⟩ <;> simp [e]

@[simp] theorem State.storeAt_windows (s : State) (off : Offset) (size : Nat) (v : Word) :
    (s.storeAt off size v).windows = s.windows := by
  rcases s.storeAt_cases off size v with e | ⟨-, -, e⟩ | ⟨-, -, e⟩ | ⟨-, -, e⟩ | ⟨-, -, e⟩ | ⟨-, -, e⟩ | ⟨-, -, e⟩ <;> simp [e]

/-- The accepted 4-byte offset whose register is CMD is 0x1000 (R25). -/
theorem eq_cmdOffset {off : Offset} {size : Nat} (ha : portAccepts off size = true) (hw : windowOf off = .registers)
    (hr : regOf off = .cmd) : off = cmdOffset := by
  have h4 : size = 4 ∧ off.toNat % 4 = 0 := by
    unfold portAccepts at ha
    split at ha
    · exact ⟨by assumption, by simpa using ha⟩
    · split at ha
      · simp [hw] at ha
      · simp at ha
  have hlo : 0x1000 ≤ off.toNat := by
    unfold windowOf at hw
    simp only at hw
    split at hw
    · simp at hw
    · split at hw
      · simp at hw
      · omega
  have hq : (off.toNat - 0x1000) / 4 = 0 := by
    unfold regOf at hr
    split at hr <;> simp_all
  refine BitVec.eq_of_toNat_eq ?_
  have : (cmdOffset).toNat = 0x1000 := by decide
  omega

/-- All that one step can do when it answers a next state. -/
theorem step_cases {s t : State} (h : step s = .next t) :
    (∃ rest, s.port = .reset :: rest ∧ t = (s.setPort rest).assertReset) ∨
    (s.seq = .init ∧ t = s.endInit) ∨
    (∃ c, s.seq = .exec c ∧ exec c s = .next t) ∨
    (s.seq = .idle ∧ s.port = [] ∧ t = s) ∨
    (s.seq = .idle ∧ ∃ a rest, s.port = .access a :: rest ∧ a.accepted = false ∧
      Config.onBusErr s.responses.length = .goesOn ∧ t = (s.setPort rest).respond [.busErr]) ∨
    (s.seq = .idle ∧ ∃ off size rest, s.port = .access (.read off size) :: rest ∧ portAccepts off size = true ∧
      t = (s.setPort rest).respond [.data (s.readAt off size)]) ∨
    (s.seq = .idle ∧ ∃ off size v rest, s.port = .access (.write off size v) :: rest ∧ portAccepts off size = true ∧
      off ≠ cmdOffset ∧ t = ((s.setPort rest).storeAt off size v).respond [.okay]) ∨
    (s.seq = .idle ∧ ∃ size w rest, s.port = .access (.write cmdOffset size w) :: rest ∧
      portAccepts cmdOffset size = true ∧ commandWrite w ((s.setPort rest).respond [.okay]) = .next t) := by
  have hbus : ∀ u : State, deliverBusErr u = .next t →
      Config.onBusErr u.responses.length = .goesOn ∧ t = u.respond [.busErr] := by
    intro u hu
    unfold deliverBusErr at hu
    split at hu
    · exact ⟨by assumption, (Host.Outcome.next.inj hu).symm⟩
    · simp at hu
  by_cases hno1 : ∃ rest, s.port = .reset :: rest
  · obtain ⟨rest, hp⟩ := hno1
    refine .inl ⟨rest, hp, ?_⟩
    simpa [step, hp] using h.symm
  by_cases hno2 : ∃ a rest, s.port = .resetDuring a :: rest
  · obtain ⟨a, rest, hp⟩ := hno2
    simp [step, hp] at h
  have hadv : s.advance = .next t := by
    unfold step at h
    split at h
    · exact absurd ⟨_, by assumption⟩ hno1
    · exact absurd ⟨_, _, by assumption⟩ hno2
    · exact h
  refine .inr ?_
  unfold State.advance at hadv
  split at hadv
  · rename_i hs
    exact .inl ⟨hs, (Host.Outcome.next.inj hadv).symm⟩
  · rename_i c hs
    exact .inr (.inl ⟨c, hs, hadv⟩)
  · rename_i hs
    refine .inr (.inr ?_)
    split at hadv
    · rename_i a rest hp
      refine .inr ?_
      unfold performAccess at hadv
      split at hadv
      · rename_i hacc
        cases a with
        | read off size =>
          simp only [State.readAt_setPort] at hadv
          exact .inr (.inl ⟨hs, off, size, rest, hp, hacc, (Host.Outcome.next.inj hadv).symm⟩)
        | write off size v =>
          simp only at hadv
          split at hadv
          · rename_i hc
            subst hc
            exact .inr (.inr (.inr ⟨hs, size, v, rest, hp, hacc, hadv⟩))
          · rename_i hc
            exact .inr (.inr (.inl ⟨hs, off, size, v, rest, hp, hacc, hc, (Host.Outcome.next.inj hadv).symm⟩))
      · rename_i hacc
        exact .inl ⟨hs, a, rest, hp, by simpa using hacc, hbus _ hadv⟩
    · rename_i hp
      refine .inl ⟨hs, ?_, (Host.Outcome.next.inj hadv).symm⟩
      cases hport : s.port with
      | nil => rfl
      | cons e rest =>
        cases e with
        | access a => exact absurd hport (hp a rest)
        | reset => exact absurd ⟨rest, hport⟩ hno1
        | resetDuring a => exact absurd ⟨a, rest, hport⟩ hno2

/-- A step whose next event is no reset is what the block does by itself. -/
theorem step_eq_advance {s : State} (h1 : ∀ rest, s.port ≠ .reset :: rest)
    (h2 : ∀ a rest, s.port ≠ .resetDuring a :: rest) : step s = s.advance := by
  unfold step
  split
  · exact absurd (by assumption) (h1 _)
  · exact absurd (by assumption) (h2 _ _)
  · rfl

/-- From INIT the step ends INIT, whatever waits at the port but a reset (R211). -/
theorem step_init {s : State} (hs : s.seq = .init) (h1 : ∀ rest, s.port ≠ .reset :: rest)
    (h2 : ∀ a rest, s.port ≠ .resetDuring a :: rest) : step s = .next s.endInit := by
  rw [step_eq_advance h1 h2, State.advance, hs]

/-- On an idle block the step performs the access at the head of the queue. -/
theorem step_access {s : State} {a : Access} {rest : List HostEvent} (hs : s.seq = .idle)
    (hp : s.port = .access a :: rest) : step s = performAccess a (s.setPort rest) := by
  rw [step_eq_advance (by simp [hp]) (by simp [hp]), State.advance, hs]
  simp only [hp]

end Sys2Proof.Machine
end

