-- ==== Sys2Proof/Laws/Port.lean ====
section
/-! SUPPORT. The host port: which window an offset lies in, which accesses are accepted, and the step that performs one access of
the host assembly. -/

namespace Sys2Proof.Machine

/-! ### The block-offset map (R61) -/

/-- Every offset lies in one window of R61, and the bounds of that window hold of it. -/
theorem windowOf_cases (off : Offset) :
    (off.toNat < 0x930 ∧ windowOf off = .sector) ∨
    (0x930 ≤ off.toNat ∧ off.toNat < 0x1000 ∧ windowOf off = .reserved) ∨
    (0x1000 ≤ off.toNat ∧ off.toNat < 0x1020 ∧ windowOf off = .registers) ∨
    (0x1020 ≤ off.toNat ∧ off.toNat < 0x2000 ∧ windowOf off = .reserved) ∨
    (0x2000 ≤ off.toNat ∧ off.toNat < 0x2400 ∧ windowOf off = .edcLut) ∨
    (0x2400 ≤ off.toNat ∧ off.toNat < 0x2500 ∧ windowOf off = .eccF) ∨
    (0x2500 ≤ off.toNat ∧ off.toNat < 0x2600 ∧ windowOf off = .eccB) ∨
    (0x2600 ≤ off.toNat ∧ windowOf off = .reserved) := by
  unfold windowOf
  simp only
  split
  · exact .inl ⟨by omega, rfl⟩
  · split
    · exact .inr (.inl ⟨by omega, by omega, rfl⟩)
    · split
      · exact .inr (.inr (.inl ⟨by omega, by omega, rfl⟩))
      · split
        · exact .inr (.inr (.inr (.inl ⟨by omega, by omega, rfl⟩)))
        · split
          · exact .inr (.inr (.inr (.inr (.inl ⟨by omega, by omega, rfl⟩))))
          · split
            · exact .inr (.inr (.inr (.inr (.inr (.inl ⟨by omega, by omega, rfl⟩)))))
            · split
              · exact .inr (.inr (.inr (.inr (.inr (.inr (.inl ⟨by omega, by omega, rfl⟩))))))
              · exact .inr (.inr (.inr (.inr (.inr (.inr (.inr ⟨by omega, rfl⟩))))))

theorem windowOf_sector {off : Offset} (h : off.toNat < 0x930) : windowOf off = .sector := by
  rcases windowOf_cases off with h1 | h1 | h1 | h1 | h1 | h1 | h1 | h1 <;> first | exact h1.2 | omega

theorem windowOf_edcLut {off : Offset} (h : 0x2000 ≤ off.toNat) (h' : off.toNat < 0x2400) : windowOf off = .edcLut := by
  rcases windowOf_cases off with h1 | h1 | h1 | h1 | h1 | h1 | h1 | h1 <;> first | exact h1.2.2 | omega

theorem windowOf_eccF {off : Offset} (h : 0x2400 ≤ off.toNat) (h' : off.toNat < 0x2500) : windowOf off = .eccF := by
  rcases windowOf_cases off with h1 | h1 | h1 | h1 | h1 | h1 | h1 | h1 <;> first | exact h1.2.2 | omega

theorem windowOf_eccB {off : Offset} (h : 0x2500 ≤ off.toNat) (h' : off.toNat < 0x2600) : windowOf off = .eccB := by
  rcases windowOf_cases off with h1 | h1 | h1 | h1 | h1 | h1 | h1 | h1 <;> first | exact h1.2.2 | omega

theorem windowOf_registers {off : Offset} (h : 0x1000 ≤ off.toNat) (h' : off.toNat < 0x1020) :
    windowOf off = .registers := by
  rcases windowOf_cases off with h1 | h1 | h1 | h1 | h1 | h1 | h1 | h1 <;> first | exact h1.2.2 | omega

/-- The reserved ranges of R61. -/
theorem windowOf_reserved {off : Offset}
    (h : (0x930 ≤ off.toNat ∧ off.toNat < 0x1000) ∨ (0x1020 ≤ off.toNat ∧ off.toNat < 0x2000) ∨ 0x2600 ≤ off.toNat) :
    windowOf off = .reserved := by
  rcases windowOf_cases off with h1 | h1 | h1 | h1 | h1 | h1 | h1 | h1 <;>
    first | omega | exact h1.2.2 | exact h1.2

/-! ### What each window reads and stores -/

/-- A word's bytes, written without brackets (R62). -/
theorem leWord_eq (b0 b1 b2 b3 : Byte) : leWord b0 b1 b2 b3 = b3 ++ b2 ++ b1 ++ b0 := by
  refine BitVec.eq_of_getLsbD_eq (fun i _ => ?_)
  simp only [leWord, BitVec.getLsbD_append]
  split_ifs <;> first | omega | rfl

theorem State.readAt_sectorWord (s : State) {off : Offset} (h : off.toNat < 0x930) :
    s.readAt off 4 = s.sector.loadLE32 off.toNat := by
  simp only [State.readAt, if_true, State.readWord, windowOf_sector h]

theorem State.readAt_sectorByte (s : State) {off : Offset} (h : off.toNat < 0x930) :
    s.readAt off 1 = (s.sector.read off.toNat).setWidth 32 := by
  simp only [State.readAt, OfNat.one_ne_ofNat, if_false, State.readByte, windowOf_sector h]

theorem State.readAt_register (s : State) {off : Offset} (h : windowOf off = .registers) :
    s.readAt off 4 = s.readReg (regOf off) := by
  simp only [State.readAt, if_true, State.readWord, h]

theorem State.readAt_edcLut (s : State) {off : Offset} (h : 0x2000 ≤ off.toNat) (h' : off.toNat < 0x2400) :
    s.readAt off 4 = edcLut (BitVec.ofNat 8 ((off.toNat - 0x2000) / 4)) := by
  simp only [State.readAt, if_true, State.readWord, windowOf_edcLut h h']

theorem State.readAt_eccFWord (s : State) {off : Offset} (h : 0x2400 ≤ off.toNat) (h' : off.toNat < 0x2500) :
    s.readAt off 4 = tableWord eccF (off.toNat - 0x2400) := by
  simp only [State.readAt, if_true, State.readWord, windowOf_eccF h h']

theorem State.readAt_eccBWord (s : State) {off : Offset} (h : 0x2500 ≤ off.toNat) (h' : off.toNat < 0x2600) :
    s.readAt off 4 = tableWord eccB (off.toNat - 0x2500) := by
  simp only [State.readAt, if_true, State.readWord, windowOf_eccB h h']

theorem State.readAt_eccFByte (s : State) {off : Offset} (h : 0x2400 ≤ off.toNat) (h' : off.toNat < 0x2500) :
    s.readAt off 1 = (tableByte eccF (off.toNat - 0x2400)).setWidth 32 := by
  simp only [State.readAt, OfNat.one_ne_ofNat, if_false, State.readByte, windowOf_eccF h h']

theorem State.readAt_eccBByte (s : State) {off : Offset} (h : 0x2500 ≤ off.toNat) (h' : off.toNat < 0x2600) :
    s.readAt off 1 = (tableByte eccB (off.toNat - 0x2500)).setWidth 32 := by
  simp only [State.readAt, OfNat.one_ne_ofNat, if_false, State.readByte, windowOf_eccB h h']

theorem State.readAt_reserved (s : State) {off : Offset} (h : windowOf off = .reserved) : s.readAt off 4 = 0#32 := by
  simp only [State.readAt, if_true, State.readWord, h]

theorem State.storeAt_sectorWord (s : State) {off : Offset} (h : off.toNat < 0x930) (v : Word) :
    s.storeAt off 4 v = s.setSector (s.sector.storeLE32 off.toNat v) := by
  simp only [State.storeAt, windowOf_sector h, if_true]

theorem State.storeAt_sectorByte (s : State) {off : Offset} (h : off.toNat < 0x930) (v : Word) :
    s.storeAt off 1 v = s.setSector (s.sector.write off.toNat (v.extractLsb' 0 8)) := by
  simp only [State.storeAt, windowOf_sector h, OfNat.one_ne_ofNat, if_false]

theorem State.storeAt_register (s : State) {off : Offset} (h : windowOf off = .registers) (size : Nat) (v : Word) :
    s.storeAt off size v = s.writeReg (regOf off) v := by
  simp only [State.storeAt, h]

/-- The table windows and the reserved windows store nothing (R66, R67). -/
theorem State.storeAt_ignored (s : State) {off : Offset}
    (h : windowOf off = .reserved ∨ (0x2000 ≤ off.toNat ∧ off.toNat < 0x2600)) (size : Nat) (v : Word) :
    s.storeAt off size v = s := by
  rcases h with h | h
  · simp only [State.storeAt, h]
  · rcases windowOf_cases off with h1 | h1 | h1 | h1 | h1 | h1 | h1 | h1 <;>
      first | omega | simp only [State.storeAt, h1.2.2]

/-! ### Which accesses are accepted (R69) -/

/-- The port accepts exactly aligned 4-byte accesses, and 1-byte accesses in SECTOR, ECC_F and ECC_B. -/
theorem portAccepts_iff (off : Offset) (size : Nat) :
    portAccepts off size = true ↔
      (size = 4 ∧ off.toNat % 4 = 0) ∨
      (size = 1 ∧ (off.toNat < 0x930 ∨ (0x2400 ≤ off.toNat ∧ off.toNat < 0x2600))) := by
  unfold portAccepts
  by_cases h4 : size = 4
  · simp [h4]
  · by_cases h1 : size = 1
    · subst h1
      rcases windowOf_cases off with h | h | h | h | h | h | h | h
      · simp [h.2, h.1]
      · simp only [h.2.2]; simp; omega
      · simp only [h.2.2]; simp; omega
      · simp only [h.2.2]; simp; omega
      · simp only [h.2.2]; simp; omega
      · simp only [h.2.2]; simp; omega
      · simp only [h.2.2]; simp; omega
      · simp only [h.2]; simp; omega
    · simp [h4, h1]

theorem portAccepts_word {off : Offset} (h : off.toNat % 4 = 0) : portAccepts off 4 = true :=
  (portAccepts_iff off 4).2 (.inl ⟨rfl, h⟩)

theorem portAccepts_sectorByte {off : Offset} (h : off.toNat < 0x930) : portAccepts off 1 = true :=
  (portAccepts_iff off 1).2 (.inr ⟨rfl, .inl h⟩)

theorem portAccepts_tableByte {off : Offset} (h : 0x2400 ≤ off.toNat) (h' : off.toNat < 0x2600) :
    portAccepts off 1 = true :=
  (portAccepts_iff off 1).2 (.inr ⟨rfl, .inr ⟨h, h'⟩⟩)

/-! ### The step that performs one access -/

/-- An accepted read gets its value and changes nothing else (R65, R67, R68, R70). -/
theorem step_read {s : State} {off : Offset} {size : Nat} {rest : List HostEvent} (hs : s.seq = .idle)
    (hp : s.port = .access (.read off size) :: rest) (ha : portAccepts off size = true) :
    step s = .next ((s.setPort rest).respond [.data (s.readAt off size)]) := by
  rw [step_access hs hp]
  simp [performAccess, Access.accepted, ha]

/-- An accepted write that is not to CMD stores its data and gets OKAY (R64, R66, R68). -/
theorem step_write {s : State} {off : Offset} {size : Nat} {v : Word} {rest : List HostEvent} (hs : s.seq = .idle)
    (hp : s.port = .access (.write off size v) :: rest) (ha : portAccepts off size = true) (hc : off ≠ cmdOffset) :
    step s = .next (((s.setPort rest).storeAt off size v).respond [.okay]) := by
  rw [step_access hs hp]
  simp [performAccess, Access.accepted, ha, hc]

/-- A write to CMD gets OKAY and is a command, or a rejection (R181). -/
theorem step_cmd {s : State} {w : Word} {rest : List HostEvent} (hs : s.seq = .idle) (hp : s.port = cmdw w :: rest) :
    step s = commandWrite w ((s.setPort rest).respond [.okay]) := by
  have ha : portAccepts cmdOffset 4 = true := by decide
  rw [step_access hs hp]
  simp [performAccess, Access.accepted, ha]

/-- Every other access gets BUSERR (R69, R186). -/
theorem step_busErr {s : State} {a : Access} {rest : List HostEvent} (hs : s.seq = .idle)
    (hp : s.port = .access a :: rest) (ha : a.accepted = false) : step s = deliverBusErr (s.setPort rest) := by
  rw [step_access hs hp]
  simp [performAccess, ha]

end Sys2Proof.Machine
end

