-- ==== Sys2Proof/Tests/Slice0.lean ====
section
/-! SUPPORT. Tests and witnesses. The expected results are the words of the spec: the tables of R37 to R39, the encodings of R91 to R93
written out bit by bit, and the vectors of spec/95_test_vectors.md. After them, one witness for every statement that has hypotheses: a
concrete state that meets all of them. -/

namespace Sys2Proof.Tests

open Sys2Proof Sys2Proof.Machine

/-! ### Ill-formed words, one for each check of R94 -/

theorem test_wf_refuses_reserved_bits : reservedBitsZero 0x00000080#32 = false ∧ commandWordWf 0x00000080#32 = false := by decide
theorem test_wf_refuses_reserved_opcode : opcodeAssigned 0x00000006#32 = false ∧ commandWordWf 0x00000006#32 = false := by decide
theorem test_wf_refuses_type_outside_gen : typeOnlyForGen 0x00000012#32 = false ∧ commandWordWf 0x00000012#32 = false := by decide
theorem test_wf_refuses_za_outside_ecc : zaOnlyForEcc 0x00000041#32 = false ∧ commandWordWf 0x00000041#32 = false := by decide
theorem test_wf_accepts_the_legal_words :
    ([0x00, 0x01, 0x11, 0x21, 0x31, 0x02, 0x03, 0x43, 0x04, 0x44, 0x05, 0x45].all fun n => commandWordWf (BitVec.ofNat 32 n)) = true := by
  decide

/-! ### Words written out as RSVD, ZA, TYPE, OP (R91 to R93) -/

theorem test_decode_nop : decode (0#25 ++ 0b0#1 ++ 0b00#2 ++ 0b0000#4) = .command .nop := by decide
theorem test_decode_genT0 : decode (0#25 ++ 0b0#1 ++ 0b00#2 ++ 0b0001#4) = .command .genT0 := by decide
theorem test_decode_genT1 : decode (0#25 ++ 0b0#1 ++ 0b01#2 ++ 0b0001#4) = .command .genT1 := by decide
theorem test_decode_genT2 : decode (0#25 ++ 0b0#1 ++ 0b10#2 ++ 0b0001#4) = .command .genT2 := by decide
theorem test_decode_genT3 : decode (0#25 ++ 0b0#1 ++ 0b11#2 ++ 0b0001#4) = .command .genT3 := by decide
theorem test_decode_edc : decode (0#25 ++ 0b0#1 ++ 0b00#2 ++ 0b0010#4) = .command .edc := by decide
theorem test_decode_eccp : decode (0#25 ++ 0b0#1 ++ 0b00#2 ++ 0b0011#4) = .command (.eccp false) := by decide
theorem test_decode_eccp_za : decode (0#25 ++ 0b1#1 ++ 0b00#2 ++ 0b0011#4) = .command (.eccp true) := by decide
theorem test_decode_eccq : decode (0#25 ++ 0b0#1 ++ 0b00#2 ++ 0b0100#4) = .command (.eccq false) := by decide
theorem test_decode_eccq_za : decode (0#25 ++ 0b1#1 ++ 0b00#2 ++ 0b0100#4) = .command (.eccq true) := by decide
theorem test_decode_eccpq : decode (0#25 ++ 0b0#1 ++ 0b00#2 ++ 0b0101#4) = .command (.eccpq false) := by decide
theorem test_decode_eccpq_za : decode (0#25 ++ 0b1#1 ++ 0b00#2 ++ 0b0101#4) = .command (.eccpq true) := by decide

/-- V-DEC-4 to V-DEC-7 and V-DEC-10 to V-DEC-13: illegal words. -/
theorem test_decode_illegal :
    ([0x41, 0x51, 0x12, 0x13, 0x06, 0x0F, 0x80, 0x80000001, 0x42, 0x82].all fun n =>
      match decode (BitVec.ofNat 32 n) with
      | .illegal _ => true
      | .command _ => false) = true := by decide

/-- A table word is read at its own width, and a value above 32 bits is no command (R90). -/
theorem test_decodeTableWord :
    decodeTableWord 32 0x45 = some (.eccpq true) ∧ decodeTableWord 32 0x06 = none ∧ decodeTableWord 64 0x100000000 = none := by
  decide

/-! ### The constant tables (R37 to R39) -/

/-- The table of R37. -/
def tableEdcLut : List Nat :=
  [0x00000000, 0x90910101, 0x91210201, 0x01B00300, 0x92410401, 0x02D00500, 0x03600600, 0x93F10701] ++
  [0x94810801, 0x04100900, 0x05A00A00, 0x95310B01, 0x06C00C00, 0x96510D01, 0x97E10E01, 0x07700F00] ++
  [0x99011001, 0x09901100, 0x08201200, 0x98B11301, 0x0B401400, 0x9BD11501, 0x9A611601, 0x0AF01700] ++
  [0x0D801800, 0x9D111901, 0x9CA11A01, 0x0C301B00, 0x9FC11C01, 0x0F501D00, 0x0EE01E00, 0x9E711F01] ++
  [0x82012001, 0x12902100, 0x13202200, 0x83B12301, 0x10402400, 0x80D12501, 0x81612601, 0x11F02700] ++
  [0x16802800, 0x86112901, 0x87A12A01, 0x17302B00, 0x84C12C01, 0x14502D00, 0x15E02E00, 0x85712F01] ++
  [0x1B003000, 0x8B913101, 0x8A213201, 0x1AB03300, 0x89413401, 0x19D03500, 0x18603600, 0x88F13701] ++
  [0x8F813801, 0x1F103900, 0x1EA03A00, 0x8E313B01, 0x1DC03C00, 0x8D513D01, 0x8CE13E01, 0x1C703F00] ++
  [0xB4014001, 0x24904100, 0x25204200, 0xB5B14301, 0x26404400, 0xB6D14501, 0xB7614601, 0x27F04700] ++
  [0x20804800, 0xB0114901, 0xB1A14A01, 0x21304B00, 0xB2C14C01, 0x22504D00, 0x23E04E00, 0xB3714F01] ++
  [0x2D005000, 0xBD915101, 0xBC215201, 0x2CB05300, 0xBF415401, 0x2FD05500, 0x2E605600, 0xBEF15701] ++
  [0xB9815801, 0x29105900, 0x28A05A00, 0xB8315B01, 0x2BC05C00, 0xBB515D01, 0xBAE15E01, 0x2A705F00] ++
  [0x36006000, 0xA6916101, 0xA7216201, 0x37B06300, 0xA4416401, 0x34D06500, 0x35606600, 0xA5F16701] ++
  [0xA2816801, 0x32106900, 0x33A06A00, 0xA3316B01, 0x30C06C00, 0xA0516D01, 0xA1E16E01, 0x31706F00] ++
  [0xAF017001, 0x3F907100, 0x3E207200, 0xAEB17301, 0x3D407400, 0xADD17501, 0xAC617601, 0x3CF07700] ++
  [0x3B807800, 0xAB117901, 0xAAA17A01, 0x3A307B00, 0xA9C17C01, 0x39507D00, 0x38E07E00, 0xA8717F01] ++
  [0xD8018001, 0x48908100, 0x49208200, 0xD9B18301, 0x4A408400, 0xDAD18501, 0xDB618601, 0x4BF08700] ++
  [0x4C808800, 0xDC118901, 0xDDA18A01, 0x4D308B00, 0xDEC18C01, 0x4E508D00, 0x4FE08E00, 0xDF718F01] ++
  [0x41009000, 0xD1919101, 0xD0219201, 0x40B09300, 0xD3419401, 0x43D09500, 0x42609600, 0xD2F19701] ++
  [0xD5819801, 0x45109900, 0x44A09A00, 0xD4319B01, 0x47C09C00, 0xD7519D01, 0xD6E19E01, 0x46709F00] ++
  [0x5A00A000, 0xCA91A101, 0xCB21A201, 0x5BB0A300, 0xC841A401, 0x58D0A500, 0x5960A600, 0xC9F1A701] ++
  [0xCE81A801, 0x5E10A900, 0x5FA0AA00, 0xCF31AB01, 0x5CC0AC00, 0xCC51AD01, 0xCDE1AE01, 0x5D70AF00] ++
  [0xC301B001, 0x5390B100, 0x5220B200, 0xC2B1B301, 0x5140B400, 0xC1D1B501, 0xC061B601, 0x50F0B700] ++
  [0x5780B800, 0xC711B901, 0xC6A1BA01, 0x5630BB00, 0xC5C1BC01, 0x5550BD00, 0x54E0BE00, 0xC471BF01] ++
  [0x6C00C000, 0xFC91C101, 0xFD21C201, 0x6DB0C300, 0xFE41C401, 0x6ED0C500, 0x6F60C600, 0xFFF1C701] ++
  [0xF881C801, 0x6810C900, 0x69A0CA00, 0xF931CB01, 0x6AC0CC00, 0xFA51CD01, 0xFBE1CE01, 0x6B70CF00] ++
  [0xF501D001, 0x6590D100, 0x6420D200, 0xF4B1D301, 0x6740D400, 0xF7D1D501, 0xF661D601, 0x66F0D700] ++
  [0x6180D800, 0xF111D901, 0xF0A1DA01, 0x6030DB00, 0xF3C1DC01, 0x6350DD00, 0x62E0DE00, 0xF271DF01] ++
  [0xEE01E001, 0x7E90E100, 0x7F20E200, 0xEFB1E301, 0x7C40E400, 0xECD1E501, 0xED61E601, 0x7DF0E700] ++
  [0x7A80E800, 0xEA11E901, 0xEBA1EA01, 0x7B30EB00, 0xE8C1EC01, 0x7850ED00, 0x79E0EE00, 0xE971EF01] ++
  [0x7700F000, 0xE791F101, 0xE621F201, 0x76B0F300, 0xE541F401, 0x75D0F500, 0x7460F600, 0xE4F1F701] ++
  [0xE381F801, 0x7310F900, 0x72A0FA00, 0xE231FB01, 0x71C0FC00, 0xE151FD01, 0xE0E1FE01, 0x7070FF00]

/-- The table of R38. -/
def tableEccF : List Nat :=
  [0x00, 0x02, 0x04, 0x06, 0x08, 0x0A, 0x0C, 0x0E, 0x10, 0x12, 0x14, 0x16, 0x18, 0x1A, 0x1C, 0x1E] ++
  [0x20, 0x22, 0x24, 0x26, 0x28, 0x2A, 0x2C, 0x2E, 0x30, 0x32, 0x34, 0x36, 0x38, 0x3A, 0x3C, 0x3E] ++
  [0x40, 0x42, 0x44, 0x46, 0x48, 0x4A, 0x4C, 0x4E, 0x50, 0x52, 0x54, 0x56, 0x58, 0x5A, 0x5C, 0x5E] ++
  [0x60, 0x62, 0x64, 0x66, 0x68, 0x6A, 0x6C, 0x6E, 0x70, 0x72, 0x74, 0x76, 0x78, 0x7A, 0x7C, 0x7E] ++
  [0x80, 0x82, 0x84, 0x86, 0x88, 0x8A, 0x8C, 0x8E, 0x90, 0x92, 0x94, 0x96, 0x98, 0x9A, 0x9C, 0x9E] ++
  [0xA0, 0xA2, 0xA4, 0xA6, 0xA8, 0xAA, 0xAC, 0xAE, 0xB0, 0xB2, 0xB4, 0xB6, 0xB8, 0xBA, 0xBC, 0xBE] ++
  [0xC0, 0xC2, 0xC4, 0xC6, 0xC8, 0xCA, 0xCC, 0xCE, 0xD0, 0xD2, 0xD4, 0xD6, 0xD8, 0xDA, 0xDC, 0xDE] ++
  [0xE0, 0xE2, 0xE4, 0xE6, 0xE8, 0xEA, 0xEC, 0xEE, 0xF0, 0xF2, 0xF4, 0xF6, 0xF8, 0xFA, 0xFC, 0xFE] ++
  [0x1D, 0x1F, 0x19, 0x1B, 0x15, 0x17, 0x11, 0x13, 0x0D, 0x0F, 0x09, 0x0B, 0x05, 0x07, 0x01, 0x03] ++
  [0x3D, 0x3F, 0x39, 0x3B, 0x35, 0x37, 0x31, 0x33, 0x2D, 0x2F, 0x29, 0x2B, 0x25, 0x27, 0x21, 0x23] ++
  [0x5D, 0x5F, 0x59, 0x5B, 0x55, 0x57, 0x51, 0x53, 0x4D, 0x4F, 0x49, 0x4B, 0x45, 0x47, 0x41, 0x43] ++
  [0x7D, 0x7F, 0x79, 0x7B, 0x75, 0x77, 0x71, 0x73, 0x6D, 0x6F, 0x69, 0x6B, 0x65, 0x67, 0x61, 0x63] ++
  [0x9D, 0x9F, 0x99, 0x9B, 0x95, 0x97, 0x91, 0x93, 0x8D, 0x8F, 0x89, 0x8B, 0x85, 0x87, 0x81, 0x83] ++
  [0xBD, 0xBF, 0xB9, 0xBB, 0xB5, 0xB7, 0xB1, 0xB3, 0xAD, 0xAF, 0xA9, 0xAB, 0xA5, 0xA7, 0xA1, 0xA3] ++
  [0xDD, 0xDF, 0xD9, 0xDB, 0xD5, 0xD7, 0xD1, 0xD3, 0xCD, 0xCF, 0xC9, 0xCB, 0xC5, 0xC7, 0xC1, 0xC3] ++
  [0xFD, 0xFF, 0xF9, 0xFB, 0xF5, 0xF7, 0xF1, 0xF3, 0xED, 0xEF, 0xE9, 0xEB, 0xE5, 0xE7, 0xE1, 0xE3]

/-- The table of R39. -/
def tableEccB : List Nat :=
  [0x00, 0xF4, 0xF5, 0x01, 0xF7, 0x03, 0x02, 0xF6, 0xF3, 0x07, 0x06, 0xF2, 0x04, 0xF0, 0xF1, 0x05] ++
  [0xFB, 0x0F, 0x0E, 0xFA, 0x0C, 0xF8, 0xF9, 0x0D, 0x08, 0xFC, 0xFD, 0x09, 0xFF, 0x0B, 0x0A, 0xFE] ++
  [0xEB, 0x1F, 0x1E, 0xEA, 0x1C, 0xE8, 0xE9, 0x1D, 0x18, 0xEC, 0xED, 0x19, 0xEF, 0x1B, 0x1A, 0xEE] ++
  [0x10, 0xE4, 0xE5, 0x11, 0xE7, 0x13, 0x12, 0xE6, 0xE3, 0x17, 0x16, 0xE2, 0x14, 0xE0, 0xE1, 0x15] ++
  [0xCB, 0x3F, 0x3E, 0xCA, 0x3C, 0xC8, 0xC9, 0x3D, 0x38, 0xCC, 0xCD, 0x39, 0xCF, 0x3B, 0x3A, 0xCE] ++
  [0x30, 0xC4, 0xC5, 0x31, 0xC7, 0x33, 0x32, 0xC6, 0xC3, 0x37, 0x36, 0xC2, 0x34, 0xC0, 0xC1, 0x35] ++
  [0x20, 0xD4, 0xD5, 0x21, 0xD7, 0x23, 0x22, 0xD6, 0xD3, 0x27, 0x26, 0xD2, 0x24, 0xD0, 0xD1, 0x25] ++
  [0xDB, 0x2F, 0x2E, 0xDA, 0x2C, 0xD8, 0xD9, 0x2D, 0x28, 0xDC, 0xDD, 0x29, 0xDF, 0x2B, 0x2A, 0xDE] ++
  [0x8B, 0x7F, 0x7E, 0x8A, 0x7C, 0x88, 0x89, 0x7D, 0x78, 0x8C, 0x8D, 0x79, 0x8F, 0x7B, 0x7A, 0x8E] ++
  [0x70, 0x84, 0x85, 0x71, 0x87, 0x73, 0x72, 0x86, 0x83, 0x77, 0x76, 0x82, 0x74, 0x80, 0x81, 0x75] ++
  [0x60, 0x94, 0x95, 0x61, 0x97, 0x63, 0x62, 0x96, 0x93, 0x67, 0x66, 0x92, 0x64, 0x90, 0x91, 0x65] ++
  [0x9B, 0x6F, 0x6E, 0x9A, 0x6C, 0x98, 0x99, 0x6D, 0x68, 0x9C, 0x9D, 0x69, 0x9F, 0x6B, 0x6A, 0x9E] ++
  [0x40, 0xB4, 0xB5, 0x41, 0xB7, 0x43, 0x42, 0xB6, 0xB3, 0x47, 0x46, 0xB2, 0x44, 0xB0, 0xB1, 0x45] ++
  [0xBB, 0x4F, 0x4E, 0xBA, 0x4C, 0xB8, 0xB9, 0x4D, 0x48, 0xBC, 0xBD, 0x49, 0xBF, 0x4B, 0x4A, 0xBE] ++
  [0xAB, 0x5F, 0x5E, 0xAA, 0x5C, 0xA8, 0xA9, 0x5D, 0x58, 0xAC, 0xAD, 0x59, 0xAF, 0x5B, 0x5A, 0xAE] ++
  [0x50, 0xA4, 0xA5, 0x51, 0xA7, 0x53, 0x52, 0xA6, 0xA3, 0x57, 0x56, 0xA2, 0x54, 0xA0, 0xA1, 0x55]

theorem test_edcLut_table : ((List.range 256).map fun n => (edcLut (BitVec.ofNat 8 n)).toNat) = tableEdcLut := by decide +kernel
theorem test_eccF_table : ((List.range 256).map fun n => (eccF (BitVec.ofNat 8 n)).toNat) = tableEccF := by decide +kernel
theorem test_eccB_table : ((List.range 256).map fun n => (eccB (BitVec.ofNat 8 n)).toNat) = tableEccB := by decide +kernel

/-! ### The EDC of byte strings (V-EDC) -/

theorem test_edc_check_value :
    edcOfBytes [0x31#8, 0x32#8, 0x33#8, 0x34#8, 0x35#8, 0x36#8, 0x37#8, 0x38#8, 0x39#8] = 0x6EC2EDC4#32 := by decide +kernel
theorem test_edc_no_preset : edcOfBytes [0xFF#8, 0xFF#8, 0xFF#8, 0xFF#8] = 0xAF010001#32 := by decide +kernel
theorem test_edc_byte_order : edcOfBytes [0x01#8, 0x00#8] = 0x90019000#32 := by decide +kernel
theorem test_edc_sync_and_header :
    edcOfBytes ([0x00#8] ++ List.replicate 10 0xFF#8 ++ [0x00#8, 0x00#8, 0x02#8, 0x00#8, 0x01#8]) = 0x91FE029E#32 := by decide +kernel

/-! ### Parity of single columns (V-ECC) -/

/-- V-ECC-2: P column 0. -/
theorem test_eccp_column :
    (parity0 (Memory.eccColumn [(0x00C, 0x01#8)] paramsP 0), parity1 (Memory.eccColumn [(0x00C, 0x01#8)] paramsP 0)) =
      (0xF5#8, 0xF4#8) := by decide +kernel

/-- V-ECC-4: column 73, the last read of it. -/
theorem test_eccp_last_read :
    (parity0 (Memory.eccColumn [(0x80F, 0x80#8)] paramsP 73), parity1 (Memory.eccColumn [(0x80F, 0x80#8)] paramsP 73)) =
      (0x9D#8, 0x1D#8) := by decide +kernel

/-- V-ECC-6: Q column 48 reads the first P byte. -/
theorem test_eccq_reads_p :
    (parity0 (Memory.eccColumn [(0x81C, 0x01#8)] paramsQ 48), parity1 (Memory.eccColumn [(0x81C, 0x01#8)] paramsQ 48)) =
      (0xAE#8, 0xAF#8) := by decide +kernel

/-- V-ECC-7: Q column 19 reads the last P byte. -/
theorem test_eccq_reads_last_p :
    (parity0 (Memory.eccColumn [(0x8C7, 0x01#8)] paramsQ 19), parity1 (Memory.eccColumn [(0x8C7, 0x01#8)] paramsQ 19)) =
      (0x03#8, 0x02#8) := by decide +kernel

/-- V-ECC-8: the Q columns 0, 48 and 50 over the byte 0x00C and its P bytes. -/
theorem test_eccpq_columns :
    ([0, 48, 50].map fun major =>
      (parity0 (Memory.eccColumn [(0x00C, 0x01#8), (0x81C, 0xF5#8), (0x872, 0xF4#8)] paramsQ major),
       parity1 (Memory.eccColumn [(0x00C, 0x01#8), (0x81C, 0xF5#8), (0x872, 0xF4#8)] paramsQ major))) =
      [(0xAE#8, 0xAF#8), (0x3F#8, 0xCA#8), (0x91#8, 0x65#8)] := by decide +kernel

/-- The read-order checks of spec/95_test_vectors.md, section 2.3: Q column 51 wraps after its first read. -/
theorem test_eccq_read_order :
    (((paramsQ.columnIndices 51).map (eccSrc + ·)).take 4, ((paramsQ.columnIndices 51).map (eccSrc + ·)).getLast?) =
      ([0x873, 0x00F, 0x067, 0x0BF], some 0x56B) := by decide +kernel

/-! ### One step of the machine -/

/-- An idle block with the buffer `m` and these accesses at its port, every register as reset leaves it. -/
def idle (m : Memory) (p : List HostEvent) : State :=
  { State.reset with sector := m, status := ⟨false, false, false, 0#4⟩, seq := .idle, port := p }

/-- The same with the EDC operand registers set. -/
def idleEdc (m : Memory) (src len dst : Word) : State :=
  { idle m [cmdw 0x00000002#32] with edcSrc := src, edcLen := len, edcDst := dst }

/-- The state after a step that answers one. -/
def next : Host.Outcome State Fault Refusal → Option State
  | .next t => some t
  | .fault _ => none
  | .refused _ => none

/-- STATUS, CMD and EDC_VALUE after one step. -/
def outcome (s : State) : Option (Word × Word × Word) :=
  (next (step s)).map fun t => (t.status.toWord, t.cmd, t.edcValue)

theorem test_init_ends : (next (step State.reset)).map (fun t => (t.status.toWord, t.seq)) = some (0#32, .idle) := by decide

/-- V-DEC-1: NOP. -/
theorem test_nop : outcome (idle [(5, 7#8)] [cmdw 0x00000000#32]) = some (0x02#32, 0#32, 0#32) := by decide

/-- V-DEC-14: NOP clears ERR. -/
theorem test_nop_clears_error :
    outcome { idle [] [cmdw 0x00000000#32] with cmd := 6#32, status := ⟨false, false, true, 1#4⟩ } =
      some (0x02#32, 0#32, 0#32) := by decide

/-- V-GEN-1: GEN.T0 changes nothing. -/
theorem test_genT0 :
    (next (step (idle [(0x810, 7#8)] [cmdw 0x00000001#32]))).map (fun t => (t.sector, t.status.toWord)) =
      some ([(0x810, 7#8)], 0x02#32) := by decide

/-- V-EDC-20, V-EDC-21: the result, little-endian, also where the destination lies inside the region. -/
theorem test_edc :
    (next (step (idleEdc [(0x100, 1#8)] 0x100#32 1#32 0x200#32))).map (fun t => (t.sector, t.status.toWord, t.edcValue)) =
      some ([(0x100, 1#8), (0x200, 0x01#8), (0x201, 0x01#8), (0x202, 0x91#8), (0x203, 0x90#8)], 0x02#32, 0x90910101#32) := by
  decide +kernel

theorem test_edc_inside_region :
    (next (step (idleEdc [(0x100, 1#8)] 0x100#32 4#32 0x100#32))).map (fun t => (t.sector, t.edcValue)) =
      some ([(0x100, 1#8), (0x103, 0x41#8)], 0x41000001#32) := by decide +kernel

/-- V-EDC-24, V-EDC-26 to V-EDC-32: the operand check at its bounds. -/
theorem test_edc_range :
    ([(2352, 0, 0), (2353, 0, 0), (0x900, 0x31, 0x200), (0x900, 0x30, 0x200), (0, 16, 0x92D), (0xFFFFFFFF, 1, 0),
      (1, 0xFFFFFFFF, 0), (0, 0, 0xFFFFFFFC)].map fun x : Nat × Nat × Nat =>
        (⟨x.1, x.2.1, x.2.2⟩ : EdcRegion).inRange) = [true, false, false, true, false, false, false, false] := by decide

theorem test_edc_rejected : outcome (idleEdc [] 2353#32 0#32 0#32) = some (0x24#32, 2#32, 0#32) := by decide

/-- V-DEC-4, V-EDC-33: illegal words are stored and rejected, whatever the operands hold. -/
theorem test_illegal_word :
    outcome (idle [] [cmdw 0x00000041#32]) = some (0x14#32, 0x41#32, 0#32) ∧
    outcome { idleEdc [] 2353#32 0#32 0#32 with port := [cmdw 0x00000082#32] } = some (0x14#32, 0x82#32, 0#32) := by decide

/-- V-ECC-9, V-ECC-10: the four address bytes come back. -/
theorem test_za_restores (body : Memory → Memory) (hb : ∀ m : Memory, m.wf → (body m).wf) :
    (Memory.withZeroAddress true body [(0x00C, 0x12#8), (0x00F, 0x02#8)]).read 0x00C = 0x12#8 := by
  rw [Memory.read_withZeroAddress (by decide) true hb, if_pos rfl, if_pos (by decide)]
  rfl

/-! ### The host port (V-PORT, V-TAB) -/

/-- The responses of one access on an idle block. -/
def answers (m : Memory) (e : HostEvent) : Option (List Response) := (next (step (idle m [e]))).map (·.responses)

/-- V-PORT-1: little-endian, and a byte zero-extended. -/
theorem test_sector_write :
    (next (step (idle [] [wr32 0x000#14 0x11223344#32]))).map (·.sector) =
      some [(0, 0x44#8), (1, 0x33#8), (2, 0x22#8), (3, 0x11#8)] := by decide
theorem test_sector_read :
    (answers [(0, 0x44#8), (1, 0x33#8), (2, 0x22#8), (3, 0x11#8)] (rd8 0x003#14),
     answers [(0, 0x44#8), (1, 0x33#8), (2, 0x22#8), (3, 0x11#8)] (rd32 0x000#14)) =
      (some [.data 0x11#32], some [.data 0x11223344#32]) := by decide

/-- V-PORT-3, V-PORT-11, V-PORT-12, V-PORT-14: reserved offsets, STATUS writes, operand registers. -/
theorem test_reserved_reads_zero : answers [] (rd32 0x930#14) = some [.data 0#32] := by decide
theorem test_status_write_ignored :
    next (step (idle [] [wr32 0x1004#14 0xFFFFFFFF#32])) = some { idle [] [] with responses := [.okay] } := by decide
theorem test_edcSrc_keeps_all_bits :
    (next (step (idle [] [wr32 0x100C#14 0xDEADBEEF#32]))).map (fun t => t.readReg .edcSrc) = some 0xDEADBEEF#32 := by decide

/-- V-PORT-5 to V-PORT-9: BUSERR. -/
theorem test_buserr :
    (portAccepts 0x930#14 1, portAccepts 0x92E#14 4, portAccepts 0x1002#14 4, portAccepts 0x1004#14 1, portAccepts 0x2000#14 1,
      portAccepts 0x000#14 2) = (false, false, false, false, false, false) := by decide

/-- V-TAB-3, V-TAB-5, V-TAB-6, V-TAB-8: the table windows. -/
theorem test_table_windows :
    [answers [] (rd32 0x2200#14), answers [] (rd8 0x248E#14), answers [] (rd8 0x25FF#14), answers [] (rd32 0x24FC#14)] =
      [some [.data 0xD8018001#32], some [.data 0x01#32], some [.data 0x55#32], some [.data 0xE3E1E7E5#32]] := by decide +kernel

/-- R183, R210: reset beside a held access, and reset with an access in flight. -/
theorem test_reset :
    (next (step (idle [(5, 7#8)] [.reset, rd32 0x1004#14]))).map (fun t => (t.sector, t.status.toWord, t.seq, t.port)) =
      some ([], 0x01#32, .init, [rd32 0x1004#14]) := by decide
theorem test_reset_during_access : step (idle [] [.resetDuring (.read 0#14 4)]) = .refused .accessInFlightAtReset := rfl

/-! ### Whole commands -/

/-- V-GEN-9: GEN.T3 stores the EDC of 0x010 to 0x92B and nothing else. -/
theorem test_genT3 :
    (next (step (idle [(0x012, 0x20#8), (0x016, 0x20#8)] [cmdw 0x00000031#32]))).map (fun t => (t.sector, t.edcValue)) =
      some ([(0x012, 0x20#8), (0x016, 0x20#8), (0x92C, 0x3F#8), (0x92D, 0x13#8), (0x92E, 0xB0#8), (0x92F, 0xBE#8)],
        0xBEB0133F#32) := by decide +kernel

theorem edc_of_zeros (a n : Nat) : edcCompute [] a n = 0#32 := by
  have h : ∀ k, (List.replicate k (0#8 : Byte)).foldl edcStep 0#32 = 0#32 := fun k => by
    induction k with
    | zero => rfl
    | succ k ih => rw [List.replicate_succ, List.foldl_cons, edcStep_zero, ih]
  have hm : Memory.readBytes [] a n = List.replicate n 0#8 := by
    simp [Memory.readBytes, Memory.read, unwrittenByte]
  rw [edcCompute, edcOfBytes, hm, h]

theorem store_zero (o : Nat) : Memory.storeLE32 [] o 0#32 = [] := by
  simp [Memory.storeLE32, leBytes, Memory.writeBytes, Memory.write, Memory.put, unwrittenByte]

theorem parity_of_zeros (n : Nat) : eccAccumulate (List.replicate n 0#8) = ⟨0#8, 0#8⟩ := by
  unfold eccAccumulate
  induction n with
  | zero => rfl
  | succ n ih =>
    rw [List.replicate_succ, List.foldl_cons]
    have : eccAdd ⟨0#8, 0#8⟩ 0#8 = ⟨0#8, 0#8⟩ := by decide
    rw [this, ih]

theorem eccBlock_zero {p : EccParams} (hp : p.Fits) : Memory.eccBlock p [] = [] := by
  have hw : Memory.wf [] := by simp [Memory.wf]
  have hcol : ∀ major, Memory.eccColumn [] p major = List.replicate (p.columnIndices major).length 0#8 := fun major => by
    simp [Memory.eccColumn, Memory.read, unwrittenByte]
  have h0 : ∀ n, parity0 (List.replicate n 0#8) = 0#8 := fun n => by
    rw [parity0, parity_of_zeros]
    decide +kernel
  have h1 : ∀ n, parity1 (List.replicate n 0#8) = 0#8 := fun n => by
    rw [parity1, h0, parity_of_zeros]
    decide
  refine Memory.ext_read (Memory.wf_eccBlock hw hp) hw (fun a => ?_)
  rw [Memory.read_eccBlock hw hp, hcol, hcol, h0, h1]
  simp [Memory.read, unwrittenByte]

/-- V-GEN-2, V-ECC-1: GEN.T1, GEN.T2 and ECCPQ leave an all-zero buffer all zero, and EDC_VALUE 0. -/
theorem test_zero_buffer (za : Bool) (i : Instr) (hi : i = .genT1 ∨ i = .genT2 ∨ i = .eccpq za) :
    ∃ t, exec i (idle [] []) = .next t ∧ t.sector = [] ∧ t.edcValue = 0#32 := by
  have hpq : Memory.eccPQ [] = [] := by rw [Memory.eccPQ, eccBlock_zero paramsP_fits, eccBlock_zero paramsQ_fits]
  have hz : ∀ za, Memory.withZeroAddress za Memory.eccPQ [] = [] := fun za => by
    have hwr : Memory.writeBytes [] eccSrc [0#8, 0#8, 0#8, 0#8] = [] := by decide
    have hre : Memory.readBytes [] eccSrc 4 = [0#8, 0#8, 0#8, 0#8] := by decide
    unfold Memory.withZeroAddress
    rw [hwr, hpq, hre, hwr]
    split <;> rfl
  have hpad : Memory.writeBytes [] zeroPadOffset (List.replicate zeroPadLength 0#8) = [] := by decide
  obtain ⟨h1, h2⟩ := State.runCommand_spec i (idle [] [])
  rcases exec_cases i (idle [] []) with ⟨⟨rfl, -⟩, -⟩ | ⟨-, h⟩
  · simp at hi
  · refine ⟨_, h, ?_, ?_⟩
    · rw [h1]
      rcases hi with rfl | rfl | rfl
      · simp only [commandBody, State.generate, layoutT1, State.mapSector_sector, State.edcStore_sector, if_true]
        simp only [idle, edc_of_zeros, store_zero, hpad, hz]
      · simp only [commandBody, State.generate, layoutT2, State.mapSector_sector, State.edcStore_sector, Bool.false_eq_true, if_false]
        simp only [idle, edc_of_zeros, store_zero, hz]
      · simp only [commandBody, State.mapSector_sector]
        exact hz za
    · rw [h2.1]
      rcases hi with rfl | rfl | rfl
      · simp only [commandBody, State.generate, layoutT1, State.mapSector_edcValue, State.edcStore_edcValue, if_true]
        exact edc_of_zeros _ _
      · simp only [commandBody, State.generate, layoutT2, State.mapSector_edcValue, State.edcStore_edcValue, Bool.false_eq_true, if_false]
        exact edc_of_zeros _ _
      · rfl
/-! ### Witnesses: the hypotheses of the statements can be met -/

theorem idle_inv {m : Memory} (h : m.wf) (p : List HostEvent) : (idle m p).Inv := by
  refine ⟨h, ?_, ?_⟩
  · simp [idle, Status.Consistent]
  · simp [idle, State.DescribesCommand, State.reset]

theorem reset_inv : State.reset.Inv := by
  refine ⟨by decide, ?_, ?_⟩
  · simp [State.reset, Status.Consistent]
  · simp [State.DescribesCommand, State.reset]

/-- EDC operands at the bounds of R182. -/
theorem operands_ok : (idleEdc [] 2352#32 0#32 2348#32).edcOperandsOk ∧ (idleEdc [] 0#32 2352#32 0#32).edcOperandsOk := by
  unfold State.edcOperandsOk
  decide

/-- EDC operands just beyond the bounds of R182. -/
theorem operands_bad : ¬ (idleEdc [] 2353#32 0#32 0#32).edcOperandsOk ∧ ¬ (idleEdc [] 0x900#32 0x31#32 0#32).edcOperandsOk ∧
    ¬ (idleEdc [] 0#32 0#32 2349#32).edcOperandsOk := by
  unfold State.edcOperandsOk
  decide

/-- Every command answers a next state, in every state. -/
theorem exec_next (i : Instr) (s : State) : ∃ t, exec i s = .next t := by
  rcases exec_cases i s with ⟨-, h⟩ | ⟨-, h⟩ <;> exact ⟨_, h⟩

/-- Every write to CMD answers a next state on an idle block. -/
theorem step_cmd_next (m : Memory) (w : Word) (rest : List HostEvent) : ∃ t, step (idle m (cmdw w :: rest)) = .next t := by
  rw [step_cmd (rest := rest) rfl rfl, commandWrite]
  split
  · exact exec_next _ _
  · exact ⟨_, rfl⟩

theorem witness_StepRunsTheCommandWritten :
    (idle [] [cmdw 0x31#32]).seq = .idle ∧ (idle [] [cmdw 0x31#32]).port = cmdw 0x31#32 :: [] ∧
      decode 0x31#32 = .command .genT3 := by decide

theorem witness_FetchedWordRunsNext : decodeTableWord 32 0x45 = some (.eccpq true) ∧ decodeTableWord 32 0x00 = some .nop := by decide

theorem witness_RejectedCommandWritesOnlyCmdAndError :
    ((idle [] [cmdw 0x06#32]).seq = .idle ∧ (idle [] [cmdw 0x06#32]).status.busy = false ∧
      (idle [] [cmdw 0x06#32]).port = cmdw 0x06#32 :: [] ∧ decode 0x06#32 = .illegal .reservedOpcode) ∧
    ((idleEdc [] 2353#32 0#32 0#32).seq = .idle ∧ (idleEdc [] 2353#32 0#32 0#32).status.busy = false ∧
      (idleEdc [] 2353#32 0#32 0#32).port = cmdw 0x02#32 :: [] ∧ decode 0x02#32 = .command .edc ∧
      ¬ (idleEdc [] 2353#32 0#32 0#32).edcOperandsOk) :=
  ⟨by decide, by decide, by decide, by decide, by decide, operands_bad.1⟩

theorem witness_OutcomeKeptUntilNextCommandWrite :
    ∃ t, (∀ rest, (idle [] [rd32 0x1004#14]).port ≠ .reset :: rest) ∧ (∀ c, (idle [] [rd32 0x1004#14]).seq ≠ .exec c) ∧
      ((idle [] [rd32 0x1004#14]).seq = .idle → ∀ w rest, (idle [] [rd32 0x1004#14]).port ≠ cmdw w :: rest) ∧
      step (idle [] [rd32 0x1004#14]) = .next t :=
  ⟨_, by simp [idle, rd32], by simp [idle], by simp [idle, rd32, cmdw, wr32], step_read rfl rfl (by decide)⟩

theorem witness_CommandWriteForgetsTheOldOutcome :
    ∃ t t', (idle [] [cmdw 0x06#32]).seq = .idle ∧ (idle [] [cmdw 0x06#32]).port = cmdw 0x06#32 :: [] ∧
      step (idle [] [cmdw 0x06#32]) = .next t ∧
      step { idle [] [cmdw 0x06#32] with
        status := { (idle [] [cmdw 0x06#32]).status with done := true, err := false, errCode := 0#4 } } = .next t' :=
  ⟨_, _, rfl, rfl, by rw [step_cmd (rest := []) rfl rfl]; rfl, by rw [step_cmd (rest := []) rfl rfl]; rfl⟩

theorem witness_EdcRejectedExactlyOutOfRange :
    (idleEdc [] 2352#32 0#32 2348#32).edcOperandsOk ∧ ¬ (idleEdc [] 2353#32 0#32 0#32).edcOperandsOk :=
  ⟨operands_ok.1, operands_bad.1⟩

theorem witness_EveryCommandEndsDoneOrRejected : (idle [] []).status.busy = false := by decide

theorem witness_NopCompletesAndChangesNothing : (0x40#32).extractLsb' 0 4 = 0#4 ∧ 0x40#32 ≠ 0#32 := by decide

/-- The witness of GenT1WritesEdcPadAndParity, GenT2WritesEdcAndZeroAddressParity, GenT3WritesOnlyTheEdc, EccpWritesTheColumnParities,
EccqWritesTheColumnParities and EccpqWritesPThenQ, with a buffer for the clauses about `seenWith` (for ZA = 1 and 0). -/
theorem witness_WritesParity :
    Memory.wf [(0x00C, 0x12#8), (0x92F, 0x01#8)] ∧ seenWith false [(0x00C, 0x12#8)] [(0x00C, 0x12#8)] ∧
      seenWith true [(0x00C, 0x12#8)] [] := by
  refine ⟨by decide, ⟨by decide, by simp⟩, ⟨by decide, fun a => ?_⟩⟩
  by_cases h : 0x00C ≤ a ∧ a < 0x010
  · simp [h, Memory.read, unwrittenByte]
  · rw [if_neg (by simp; omega), Memory.read, Memory.read, Memory.read, if_neg (by omega)]

theorem witness_GenLeavesZeroResidue :
    ∃ s t1 t2 t3, s.sector.wf ∧ exec .genT1 s = .next t1 ∧ exec .genT2 s = .next t2 ∧ exec .genT3 s = .next t3 := by
  obtain ⟨t1, h1⟩ := exec_next .genT1 (idle [(0, 1#8)] [])
  obtain ⟨t2, h2⟩ := exec_next .genT2 (idle [(0, 1#8)] [])
  obtain ⟨t3, h3⟩ := exec_next .genT3 (idle [(0, 1#8)] [])
  exact ⟨_, t1, t2, t3, (by decide : Memory.wf [(0, 1#8)]), h1, h2, h3⟩

/-- Buffers that differ at 0x810 alone, at 0x00F and 0x818 alone, and at 0x00F and 0x92C alone: just outside each input set. -/
theorem witness_GenOutputsDependOnInputSetOnly :
    (Memory.wf [(0x810, 1#8)] ∧ (∀ a, a < 0x810 → Memory.read [] a = Memory.read [(0x810, 1#8)] a) ∧
      (∃ t t', exec .genT1 (idle [] []) = .next t ∧ exec .genT1 (idle [(0x810, 1#8)] []) = .next t')) ∧
    (Memory.wf [(0x00F, 1#8), (0x818, 1#8)] ∧
      (∀ a, 0x010 ≤ a → a < 0x818 → Memory.read [] a = Memory.read [(0x00F, 1#8), (0x818, 1#8)] a) ∧
      (∃ t t', exec .genT2 (idle [] []) = .next t ∧ exec .genT2 (idle [(0x00F, 1#8), (0x818, 1#8)] []) = .next t')) ∧
    (Memory.wf [(0x00F, 1#8), (0x92C, 1#8)] ∧
      (∀ a, 0x010 ≤ a → a < 0x92C → Memory.read [] a = Memory.read [(0x00F, 1#8), (0x92C, 1#8)] a) ∧
      (∃ t t', exec .genT3 (idle [] []) = .next t ∧ exec .genT3 (idle [(0x00F, 1#8), (0x92C, 1#8)] []) = .next t')) := by
  have two : ∀ i s s', ∃ t t', exec i s = .next t ∧ exec i s' = .next t' := fun i s s' => by
    obtain ⟨t, h⟩ := exec_next i s
    obtain ⟨t', h'⟩ := exec_next i s'
    exact ⟨t, t', h, h'⟩
  refine ⟨⟨by decide, fun a h => ?_, two _ _ _⟩, ⟨by decide, fun a h h' => ?_, two _ _ _⟩, ⟨by decide, fun a h h' => ?_, two _ _ _⟩⟩
  · simp only [Memory.read]
    rw [if_neg (by omega)]
  · simp only [Memory.read]
    rw [if_neg (by omega), if_neg (by omega)]
  · simp only [Memory.read]
    rw [if_neg (by omega), if_neg (by omega)]

theorem witness_GenTwiceIsGenOnce (i : Instr) (hi : i = .genT1 ∨ i = .genT2 ∨ i = .genT3) :
    ∃ s t u, (i = .genT1 ∨ i = .genT2 ∨ i = .genT3) ∧ s.sector.wf ∧ exec i s = .next t ∧ exec i t = .next u := by
  obtain ⟨t, h⟩ := exec_next i (idle [(0, 1#8)] [])
  obtain ⟨u, h'⟩ := exec_next i t
  exact ⟨_, t, u, hi, (by decide : Memory.wf [(0, 1#8)]), h, h'⟩

theorem witness_EdcStoresTheEdcOfTheOldRegion :
    (idleEdc [] 2352#32 0#32 2348#32).sector.wf ∧ (idleEdc [] 2352#32 0#32 2348#32).edcOperandsOk :=
  ⟨by decide, operands_ok.1⟩

theorem witness_EdcOfZerosAndOfOneByte : allZeroBytes [0x00#8, 0x00#8] := by simp [allZeroBytes]

theorem witness_EdcIsLinear : [0x01#8, 0x02#8].length = [0x10#8, 0x20#8].length := by decide

theorem witness_EccpqIsEccpThenEccq (za : Bool) :
    ∃ s t u v, s.sector.wf ∧ exec (.eccpq za) s = .next t ∧ exec (.eccp za) s = .next u ∧ exec (.eccq za) u = .next v := by
  obtain ⟨t, h⟩ := exec_next (.eccpq za) (idle [(0x00C, 1#8)] [])
  obtain ⟨u, h'⟩ := exec_next (.eccp za) (idle [(0x00C, 1#8)] [])
  obtain ⟨v, h''⟩ := exec_next (.eccq za) u
  exact ⟨_, t, u, v, (by decide : Memory.wf [(0x00C, 1#8)]), h, h', h''⟩

theorem witness_ZeroAddressIsAsIfZeroAndRestored (c : Bool → Instr) (hc : c = .eccp ∨ c = .eccq ∨ c = .eccpq) :
    ∃ s s' t t', s.sector.wf ∧ seenWith true s.sector s'.sector ∧ (c = .eccp ∨ c = .eccq ∨ c = .eccpq) ∧
      exec (c true) s = .next t ∧ exec (c false) s' = .next t' := by
  obtain ⟨t, h⟩ := exec_next (c true) (idle [(0x00C, 0x12#8)] [])
  obtain ⟨t', h'⟩ := exec_next (c false) (idle [] [])
  exact ⟨_, _, t, t', (by decide : Memory.wf [(0x00C, 0x12#8)]), witness_WritesParity.2.2, hc, h, h'⟩

theorem witness_ParityBytesSatisfyTheChecks :
    Memory.wf [(0x00C, 1#8)] ∧ 85 < paramsP.majorCount ∧ 51 < paramsQ.majorCount := by decide

theorem witness_ParityBytesAreTheUniqueSolution : parityChecks [0x01#8] 0x03#8 0x02#8 := by
  unfold parityChecks
  decide

theorem witness_ParityIsLinear : xorOf [(0x00C, 3#8)] [(0x00C, 1#8)] [(0x00C, 2#8)] ∧
    paramsP.dst + 171 < paramsP.dst + 2 * paramsP.majorCount ∧ paramsQ.dst + 103 < paramsQ.dst + 2 * paramsQ.majorCount := by
  refine ⟨⟨by decide, by decide, by decide, fun a => ?_⟩, by decide, by decide⟩
  by_cases h : 0x00C = a <;> simp [Memory.read, h, unwrittenByte]

theorem witness_ColumnIndicesInClosedForm : 85 < 86 ∧ 51 < 52 := by decide

theorem witness_OldParityBytesHaveNoEffect (za : Bool) :
    ((∀ a, a < 0x81C → Memory.read [] a = Memory.read [(0x81C, 1#8)] a) ∧ Memory.wf [(0x81C, 1#8)] ∧
      (∃ t t', exec (.eccp za) (idle [] []) = .next t ∧ exec (.eccp za) (idle [(0x81C, 1#8)] []) = .next t') ∧
      (∃ t t', exec (.eccpq za) (idle [] []) = .next t ∧ exec (.eccpq za) (idle [(0x81C, 1#8)] []) = .next t')) ∧
    ((∀ a, a < 0x8C8 → Memory.read [] a = Memory.read [(0x8C8, 1#8)] a) ∧ Memory.wf [(0x8C8, 1#8)] ∧
      (∃ t t', exec (.eccq za) (idle [] []) = .next t ∧ exec (.eccq za) (idle [(0x8C8, 1#8)] []) = .next t')) := by
  have two : ∀ i s s', ∃ t t', exec i s = .next t ∧ exec i s' = .next t' := fun i s s' => by
    obtain ⟨t, h⟩ := exec_next i s
    obtain ⟨t', h'⟩ := exec_next i s'
    exact ⟨t, t', h, h'⟩
  refine ⟨⟨fun a h => ?_, by decide, two _ _ _, two _ _ _⟩, ⟨fun a h => ?_, by decide, two _ _ _⟩⟩ <;>
    (simp only [Memory.read]; rw [if_neg (by omega)])

theorem witness_CommandsWriteNoOtherRegister (i : Instr) : ∃ s t, exec i s = .next t := ⟨idle [] [], exec_next i _⟩

/-- One offset just outside the destination of each command. -/
theorem witness_CommandsStoreOnlyToTheirDestination :
    Memory.wf [(0, 1#8)] ∧ (∀ i, ∃ t, exec i (idle [(0, 1#8)] []) = .next t) ∧ ¬ storesTo .genT1 (idle [(0, 1#8)] []) 0x80F ∧
      ¬ storesTo .genT2 (idle [(0, 1#8)] []) 0x817 ∧ ¬ storesTo .genT3 (idle [(0, 1#8)] []) 0x92B ∧
      ¬ storesTo (.eccp true) (idle [(0, 1#8)] []) 0x8C8 ∧ ¬ storesTo (.eccq true) (idle [(0, 1#8)] []) 0x8C7 ∧
      ¬ storesTo (.eccpq true) (idle [(0, 1#8)] []) 0x81B ∧ ¬ storesTo .edc (idle [(0, 1#8)] []) 4 := by
  refine ⟨by decide, fun i => exec_next i _, ?_, ?_, ?_, ?_, ?_, ?_, ?_⟩ <;> simp [storesTo, State.edcRegion, idle, State.reset]

/-- A host write changes the last byte of the buffer. -/
theorem witness_BytesKeepTheirValueUnlessWritten :
    ∃ t, (idle [] [wr8 0x92F#14 1#32]).Inv ∧ (∀ rest, (idle [] [wr8 0x92F#14 1#32]).port ≠ .reset :: rest) ∧
      step (idle [] [wr8 0x92F#14 1#32]) = .next t ∧ t.sector.read 0x92F ≠ (idle [] [wr8 0x92F#14 1#32]).sector.read 0x92F :=
  ⟨{ idle [(0x92F, 1#8)] [] with responses := [.okay] }, idle_inv (by decide) _, by simp [idle, wr8], rfl, by decide⟩

/-- SectorWriteStoresItsBytes and SectorReadReturnsItsBytes, at the ends of the window. -/
theorem witness_SectorAccesses :
    Memory.wf (idle [(0, 1#8)] [wr8 0x92F#14 1#32]).sector ∧ (idle [(0, 1#8)] [wr8 0x92F#14 1#32]).seq = .idle ∧
      (0x92F#14).toNat ≤ 0x92F ∧ (0x92C#14).toNat % 4 = 0 ∧ (0x92C#14).toNat ≤ 0x92C ∧
      (idle [(0, 1#8)] [wr32 0x92C#14 1#32]).port = wr32 0x92C#14 1#32 :: [] ∧
      (idle [(0, 1#8)] [rd8 0x92F#14]).port = rd8 0x92F#14 :: [] ∧
      (idle [(0, 1#8)] [rd32 0x92C#14]).port = rd32 0x92C#14 :: [] := by decide

theorem witness_SectorWordReadsBackAsWritten :
    ∃ t u, (idle [] [wr32 0x92C#14 5#32, rd32 0x92C#14]).seq = .idle ∧
      (idle [] [wr32 0x92C#14 5#32, rd32 0x92C#14]).port = wr32 0x92C#14 5#32 :: rd32 0x92C#14 :: [] ∧
      step (idle [] [wr32 0x92C#14 5#32, rd32 0x92C#14]) = .next t ∧ step t = .next u :=
  ⟨_, _, rfl, rfl, step_write rfl rfl (by decide) (by decide), step_read (off := 0x92C#14) (size := 4) (rest := [])
    (by simp [idle]) (by simp [idle, rd32]) (by decide)⟩

/-- Every clause, at both ends of each read-only and reserved range. -/
theorem witness_ReadOnlyAndReservedIgnoreWrites :
    (idle [] [wr32 0x101C#14 1#32]).port = wr32 0x101C#14 1#32 :: [] ∧ (0x101C#14).toNat % 4 = 0 ∧
      0x101C#14 ∈ [0x1004#14, 0x1008#14, 0x1018#14, 0x101C#14] ∧
      (∀ off ∈ [0x930#14, 0x0FFC#14, 0x1020#14, 0x1FFC#14, 0x2600#14, 0x3FFC#14], reservedOffset off ∧ off.toNat % 4 = 0 ∧
        (idle [] [wr32 off 1#32]).port = wr32 off 1#32 :: [] ∧ (idle [] [rd32 off]).port = rd32 off :: []) ∧
      0x2000 ≤ (0x2000#14).toNat ∧ (0x25FC#14).toNat < 0x2600 ∧
      (idle [] [wr8 0x25FF#14 1#32]).port = wr8 0x25FF#14 1#32 :: [] ∧ 0x2400 ≤ (0x2400#14).toNat ∧ (0x25FF#14).toNat < 0x2600 := by
  refine ⟨rfl, by decide, by decide, fun off h => ⟨?_, ?_, rfl, rfl⟩, by decide, by decide, rfl, by decide, by decide⟩ <;>
    simp only [List.mem_cons, List.not_mem_nil, or_false] at h <;>
    rcases h with rfl | rfl | rfl | rfl | rfl | rfl <;> simp [reservedOffset]

theorem witness_TableWindowsReadTheTables :
    (idle [] [rd32 0x23FC#14]).port = rd32 (0x2000#14 + BitVec.ofNat 14 (4 * (255#8).toNat)) :: [] ∧
      (idle [] [rd8 0x24FF#14]).port = rd8 (0x2400#14 + (255#8).setWidth 14) :: [] ∧
      (idle [] [rd8 0x25FF#14]).port = rd8 (0x2500#14 + (255#8).setWidth 14) :: [] ∧
      (idle [] [rd32 0x24FC#14]).port = rd32 (0x2400#14 + (252#8).setWidth 14) :: [] ∧
      (idle [] [rd32 0x25FC#14]).port = rd32 (0x2500#14 + (252#8).setWidth 14) :: [] ∧ (252#8).toNat % 4 = 0 := by decide

theorem witness_RegisterReadsReturnTheRegisters :
    (idle [] [rd32 0x101C#14]).seq = .idle ∧ (idle [] [rd32 0x101C#14]).port = rd32 0x101C#14 :: [] ∧
      (0x101C#14, 0x0000011D#32) ∈ [(0x1018#14, 0xD8018001#32), (0x101C#14, 0x0000011D#32)] := by decide

/-- OperandRegistersStoreAllBits and PolynomialRegistersAreConstant. -/
theorem witness_RegisterWrites :
    (idle [] [wr32 0x100C#14 0xFFFFFFFF#32]).port = wr32 0x100C#14 0xFFFFFFFF#32 :: [] ∧
      (idle [] [wr32 0x1010#14 0xFFFFFFFF#32]).port = wr32 0x1010#14 0xFFFFFFFF#32 :: [] ∧
      (idle [] [wr32 0x1014#14 0xFFFFFFFF#32]).port = wr32 0x1014#14 0xFFFFFFFF#32 :: [] ∧
      (idle [] [wr32 0x1018#14 0#32]).port = wr32 0x1018#14 0#32 :: [] ∧
      (idle [] [rd32 0x1018#14]).port = rd32 0x1018#14 :: [] ∧ (idle [] [rd32 0x101C#14]).port = rd32 0x101C#14 :: [] := by decide

/-- An access of each unsupported kind, and one that is supported, at the bounds. -/
theorem witness_BusErrExactlyOnUnsupportedAccesses :
    (idle [] [rd32 0x3FFE#14]).seq = .idle ∧ (idle [] [rd32 0x3FFE#14]).port = .access (.read 0x3FFE#14 4) :: [] ∧
      (0x3FFE#14).toNat % 4 ≠ 0 ∧ ¬ ((0x930#14).toNat < 0x930 ∨ (0x2400 ≤ (0x930#14).toNat ∧ (0x930#14).toNat < 0x2600)) ∧
      ¬ ((0x2600#14).toNat < 0x930 ∨ (0x2400 ≤ (0x2600#14).toNat ∧ (0x2600#14).toNat < 0x2600)) ∧
      (0x92F#14).toNat < 0x930 ∧ (2 ≠ 1 ∧ 2 ≠ 4) := by decide

theorem witness_BusyWindowAnswersStatusReadsOnly :
    (∃ t, exec .nop (idle [] [rd32 0x1004#14, rd32 0x1008#14]) = .next t) ∧
    ∃ t, State.reset.seq = .init ∧ (∀ rest, State.reset.port ≠ .reset :: rest) ∧
      (∀ a rest, State.reset.port ≠ .resetDuring a :: rest) ∧ step State.reset = .next t :=
  ⟨exec_next _ _, _, rfl, by simp [State.reset], by simp [State.reset], rfl⟩

theorem witness_PlatformWindowIsDecoded :
    Config.base + 0x4000 < Config.base ∨ Config.base + 0x4000 ≤ Config.base + 0x4000 := by simp

theorem witness_SyncWritesTheSyncPattern :
    ∃ t u v, (idle [(5, 1#8)] sync).seq = .idle ∧ (idle [(5, 1#8)] sync).sector.wf ∧ (idle [(5, 1#8)] sync).port = sync ++ [] ∧
      step (idle [(5, 1#8)] sync) = .next t ∧ step t = .next u ∧ step u = .next v := by
  refine ⟨_, _, _, rfl, by decide, by decide, step_write rfl rfl (by decide) (by decide),
    step_write (off := 4#14) (size := 4) (v := 0xFFFFFFFF#32) (rest := [wr32 0x008#14 0x00FFFFFF#32]) ?_ ?_ (by decide) (by decide),
    step_write (off := 8#14) (size := 4) (v := 0x00FFFFFF#32) (rest := []) ?_ ?_ (by decide) (by decide)⟩ <;> simp [idle, wr32]

/-- INIT with a STATUS read and a register write that wait. -/
theorem witness_InitEndsAndChangesNothingElse :
    { State.reset with port := [rd32 0x1004#14, wr32 0x100C#14 5#32] }.seq = .init ∧
      (∀ rest, { State.reset with port := [rd32 0x1004#14, wr32 0x100C#14 5#32] }.port ≠ .reset :: rest) ∧
      (∀ a rest, { State.reset with port := [rd32 0x1004#14, wr32 0x100C#14 5#32] }.port ≠ .resetDuring a :: rest) := by
  simp [State.reset, rd32]

theorem witness_ResetSetsEveryResetValue :
    (idle [(5, 7#8)] [.reset, rd32 0#14]).port = .reset :: [rd32 0#14] ∧
      (idle [] [.resetDuring (.read 0#14 4)]).port = .resetDuring (.read 0#14 4) :: [] := by decide

/-- StepKeepsTheInvariant, NoStepRestsInExec and StatusWordIsConsistent. -/
theorem witness_StepKeepsTheInvariant (w : Word) :
    ∃ t, (idle [(5, 1#8)] [cmdw w]).Inv ∧ step (idle [(5, 1#8)] [cmdw w]) = .next t := by
  obtain ⟨t, h⟩ := step_cmd_next [(5, 1#8)] w []
  exact ⟨t, idle_inv (by decide) _, h⟩

theorem witness_EndedRunStaysAsItIs : (idle [(5, 1#8)] []).Inv ∧ (idle [(5, 1#8)] []).runEnded = true :=
  ⟨idle_inv (by decide) _, by decide⟩

end Sys2Proof.Tests
end

/-! # Proofs: the state of the block, its invariant, and what leaves a byte as it is (spec/10_state.md)

The rules about commands, CMD writes and stores come first, then the invariant, operation by operation, then the
statements they settle. -/

namespace Sys2Proof.Machine

/-! ### What a command can do -/

/-- All a command can do, as an inversion of its result (R181, R182). -/
theorem exec_next_cases {i : Instr} {s t : State} (h : exec i s = .next t) :
    (commandRejected i s ∧ t = s.reject .edcRange) ∨
    (¬ commandRejected i s ∧ t = s.runCommand i (commandBody i)) := by
  rcases exec_cases i s with ⟨hr, he⟩ | ⟨hr, he⟩
  · exact .inl ⟨hr, Host.Outcome.next.inj (h.symm.trans he)⟩
  · exact .inr ⟨hr, Host.Outcome.next.inj (h.symm.trans he)⟩

/-- All a write to CMD can do (R181): an illegal word and an EDC word out of range are rejected, any other word runs. -/
theorem commandWrite_next_cases {w : Word} {s t : State} (h : commandWrite w s = .next t) :
    (∃ why, decode w = .illegal why ∧ t = (s.setCmd w).reject .illegalCmd) ∨
    (∃ i, decode w = .command i ∧ exec i (s.setCmd w) = .next t) := by
  unfold commandWrite at h
  cases hd : decode w with
  | illegal why =>
    simp only [hd] at h
    exact .inl ⟨why, rfl, (Host.Outcome.next.inj h).symm⟩
  | command i =>
    simp only [hd] at h
    exact .inr ⟨i, rfl, h⟩

/-- The commands that compute an EDC are the ones with an EDC region in R160's table, and EDC itself (R28). -/
theorem commandBody_edcValue {i : Instr} (hi : i ≠ .edc ∧ i ≠ .genT1 ∧ i ≠ .genT2 ∧ i ≠ .genT3) (s : State) :
    (commandBody i s).edcValue = s.edcValue := by
  obtain ⟨h0, h1, h2, h3⟩ := hi
  cases i with
  | edc => exact absurd rfl h0
  | genT1 => exact absurd rfl h1
  | genT2 => exact absurd rfl h2
  | genT3 => exact absurd rfl h3
  | nop => rfl
  | genT0 => rfl
  | eccp za => rfl
  | eccq za => rfl
  | eccpq za => rfl

/-! ### Where a command stores -/

theorem State.edcOperandsOk_iff_inRange (s : State) : s.edcOperandsOk ↔ s.edcRegion.inRange = true := by
  rw [EdcRegion.inRange_iff]
  rfl

/-- The offsets a command stores to are given by its operand registers alone. -/
theorem storesTo_congr (i : Instr) {s t : State} (a : Nat) (h1 : s.edcSrc = t.edcSrc) (h2 : s.edcLen = t.edcLen)
    (h3 : s.edcDst = t.edcDst) : storesTo i s a ↔ storesTo i t a := by
  cases i <;> simp only [storesTo, State.edcOperandsOk, State.edcRegion, h1, h2, h3]

theorem Memory.read_withZeroAddress_eccPQ_outside {m : Memory} (h : m.wf) (za : Bool) {a : Nat}
    (ha : a < 0x81C ∨ 0x930 ≤ a) : (m.withZeroAddress za Memory.eccPQ).read a = m.read a :=
  Memory.read_withZeroAddress_outside h za (fun _ hm => Memory.wf_eccPQ hm) (fun _ hm => Memory.read_eccPQ_outside hm ha)

theorem Memory.read_withZeroAddress_eccBlock_outside {m : Memory} (h : m.wf) (za : Bool) {p : EccParams} (hp : p.Fits)
    {a : Nat} (ha : a < p.dst ∨ p.dst + 2 * p.majorCount ≤ a) :
    (m.withZeroAddress za (Memory.eccBlock p)).read a = m.read a :=
  Memory.read_withZeroAddress_outside h za (fun _ hm => Memory.wf_eccBlock hm hp)
    (fun _ hm => Memory.read_eccBlock_outside hm hp ha)

/-- The frame of every command's body in memory, its EDC operands being in range. -/
theorem read_commandBody_outside {i : Instr} {s : State} (h : s.sector.wf) (hr : ¬ commandRejected i s) {a : Nat}
    (ha : ¬ storesTo i s a) : (commandBody i s).sector.read a = s.sector.read a := by
  cases i with
  | nop => rfl
  | genT0 => rfl
  | genT1 =>
    simp only [storesTo] at ha
    have hedc := State.wf_edcStore h ⟨0x000, 0x810, 0x810⟩
    have hsec : (commandBody .genT1 s).sector = Memory.withZeroAddress false Memory.eccPQ
        ((s.edcStore ⟨0x000, 0x810, 0x810⟩).sector.writeBytes 0x814 (List.replicate 8 0#8)) := by
      simp only [commandBody, State.generate, layoutT1, State.mapSector_sector, if_true, zeroPadOffset, zeroPadLength]
    rw [hsec, Memory.read_withZeroAddress_eccPQ_outside (Memory.wf_writeBytes hedc _ _) false (by omega),
      Memory.read_writeBytes_outside hedc _ _ (by rw [List.length_replicate]; omega),
      State.read_edcStore_outside h _ (by simp only; omega)]
  | genT2 =>
    simp only [storesTo] at ha
    have hsec : (commandBody .genT2 s).sector =
        (s.edcStore ⟨0x010, 0x808, 0x818⟩).sector.withZeroAddress true Memory.eccPQ := by
      simp only [commandBody, State.generate, layoutT2, State.mapSector_sector, Bool.false_eq_true, if_false]
    rw [hsec, Memory.read_withZeroAddress_eccPQ_outside (State.wf_edcStore h _) true (by omega),
      State.read_edcStore_outside h _ (by simp only; omega)]
  | genT3 =>
    simp only [storesTo] at ha
    exact State.read_edcStore_outside h ⟨0x010, 0x91C, 0x92C⟩ (by simp only; omega)
  | edc =>
    have hok : s.edcOperandsOk := by
      rw [State.edcOperandsOk_iff_inRange]
      simpa [commandRejected] using hr
    have hout : ¬ (s.edcRegion.dst ≤ a ∧ a < s.edcRegion.dst + 4) := fun hin => ha ⟨hok, hin⟩
    exact State.read_edcStore_outside h s.edcRegion (by omega)
  | eccp za =>
    have hP : paramsP.dst = 0x81C ∧ paramsP.majorCount = 86 := ⟨rfl, rfl⟩
    simp only [storesTo] at ha
    exact Memory.read_withZeroAddress_eccBlock_outside h za paramsP_fits (by omega)
  | eccq za =>
    have hQ : paramsQ.dst = 0x8C8 ∧ paramsQ.majorCount = 52 := ⟨rfl, rfl⟩
    simp only [storesTo] at ha
    exact Memory.read_withZeroAddress_eccBlock_outside h za paramsQ_fits (by omega)
  | eccpq za =>
    simp only [storesTo] at ha
    exact Memory.read_withZeroAddress_eccPQ_outside h za (by omega)

/-- The frame of every command in memory: a byte that it does not store to reads as before. -/
theorem read_exec_outside {i : Instr} {s t : State} (h : s.sector.wf) (he : exec i s = .next t) {a : Nat}
    (ha : ¬ storesTo i s a) : t.sector.read a = s.sector.read a := by
  rcases exec_next_cases he with ⟨-, rfl⟩ | ⟨hr, rfl⟩
  · rfl
  · rw [(s.runCommand_spec i).1]
    exact read_commandBody_outside h hr ha

/-! ### What an accepted host write changes -/

theorem lt_of_windowOf_sector {off : Offset} (h : windowOf off = .sector) : off.toNat < 0x930 := by
  by_contra hlt
  rcases windowOf_cases off with ⟨h1, -⟩ | ⟨-, -, h1⟩ | ⟨-, -, h1⟩ | ⟨-, -, h1⟩ | ⟨-, -, h1⟩ | ⟨-, -, h1⟩ | ⟨-, -, h1⟩ |
    ⟨-, h1⟩
  · exact hlt h1
  all_goals exact absurd (h.symm.trans h1) (by decide)

/-- Only a write to offset 0x1000 stores CMD (R25, R26). -/
theorem State.storeAt_cmd {off : Offset} {size : Nat} (ha : portAccepts off size = true) (hc : off ≠ cmdOffset) (s : State)
    (v : Word) : (s.storeAt off size v).cmd = s.cmd := by
  rcases s.storeAt_cases off size v with e | ⟨-, -, e⟩ | ⟨-, -, e⟩ | ⟨hw, hr, -⟩ | ⟨-, -, e⟩ | ⟨-, -, e⟩ | ⟨-, -, e⟩
  case inr.inr.inr.inl => exact absurd (eq_cmdOffset ha hw hr) hc
  all_goals simp [e]

/-- A byte that an accepted write changes is the byte written, or one of the four of an aligned word (R64). -/
theorem State.storeAt_changes {s : State} (h : s.sector.wf) {off : Offset} {size : Nat} (hacc : portAccepts off size = true)
    {v : Word} {a : Nat} (ha : (s.storeAt off size v).sector.read a ≠ s.sector.read a) :
    off.toNat < 0x930 ∧
      ((size = 1 ∧ a = off.toNat) ∨ (size = 4 ∧ off.toNat % 4 = 0 ∧ off.toNat ≤ a ∧ a < off.toNat + 4)) := by
  have hsize := (portAccepts_iff off size).1 hacc
  rcases s.storeAt_cases off size v with e | ⟨hw, h4, e⟩ | ⟨hw, h4, e⟩ | ⟨-, -, e⟩ | ⟨-, -, e⟩ | ⟨-, -, e⟩ | ⟨-, -, e⟩ <;>
    rw [e] at ha
  case inr.inl =>
    have hin : ¬ (a < off.toNat ∨ off.toNat + 4 ≤ a) := fun hout => ha (Memory.read_storeLE32_outside h _ v hout)
    exact ⟨lt_of_windowOf_sector hw, .inr ⟨h4, by omega, by omega, by omega⟩⟩
  case inr.inr.inl =>
    have hin : a = off.toNat := by
      by_contra hne
      exact ha (Memory.read_write_other h _ hne)
    exact ⟨lt_of_windowOf_sector hw, .inl ⟨by omega, hin⟩⟩
  all_goals exact absurd rfl ha

/-! ### The invariant, operation by operation -/

theorem State.Inv.wf {s : State} (h : s.Inv) : s.sector.wf := h.1

/-- A change that keeps STATUS, CMD and EDC_VALUE keeps the invariant of an idle block: its operand registers and its port
do not occur in it. -/
theorem State.Inv.of_idle {s t : State} (h : s.Inv) (hs : s.seq = .idle) (hwf : t.sector.wf) (hseq : t.seq = s.seq)
    (hstatus : t.status = s.status) (hcmd : t.cmd = s.cmd) (hval : t.edcValue = s.edcValue) : t.Inv := by
  obtain ⟨-, hcons, hdone, hill, hrange, -, hfirst⟩ := h
  refine ⟨hwf, by rwa [hstatus, hseq], ?_, ?_, ?_, ?_, ?_⟩
  · rwa [hstatus, hcmd]
  · rwa [hstatus, hcmd]
  · rwa [hstatus, hcmd]
  · simp [hseq, hs]
  · rwa [hseq, hstatus, hcmd, hval]

/-- A running command reaches an idle block whose DONE describes CMD, if it is the one that CMD holds. -/
theorem State.inv_runCommand {i : Instr} {s : State} (hwf : s.sector.wf) (hcmd : decode s.cmd = .command i) :
    (s.runCommand i (commandBody i)).Inv := by
  obtain ⟨hsec, -, hc, -, -, -, hseq, hst, -⟩ := s.runCommand_spec i
  refine ⟨by rw [hsec]; exact wf_commandBody i hwf, ?_, ?_⟩
  · rw [hst, hseq]
    simp [Status.Consistent]
  · simp [State.DescribesCommand, hst, hc, hseq, hcmd]

/-- The word in CMD is one that is rejected for this cause (R180). -/
def State.CauseHolds (s : State) : CommandError → Prop
  | .illegalCmd => ∃ why, decode s.cmd = .illegal why
  | .edcRange => decode s.cmd = .command .edc

/-- A rejection on an idle block leaves a state whose ERRCODE describes CMD, if it has the cause it gives. -/
theorem State.inv_reject {e : CommandError} {s : State} (hwf : s.sector.wf) (hseq : s.seq = .idle)
    (hbusy : s.status.busy = false) (he : s.CauseHolds e) : (s.reject e).Inv := by
  refine ⟨hwf, ?_, ?_⟩
  · cases e <;> simp [Status.Consistent, hseq, hbusy]
  · cases e <;> simpa [State.DescribesCommand, hseq, State.CauseHolds] using he

/-- Reset reaches the invariant from any state (R210). -/
theorem State.inv_assertReset (s : State) : s.assertReset.Inv := by
  refine ⟨Memory.wf_reset, ?_, ?_⟩
  · simp [Status.Consistent]
  · simp [State.DescribesCommand]

/-- In INIT no command has been written yet, so the end of INIT has nothing to describe (R32, R211). -/
theorem State.Inv.endInit {s : State} (h : s.Inv) (hs : s.seq = .init) : s.endInit.Inv := by
  obtain ⟨hwf, ⟨hbusy, hquiet, -, hcode, -⟩, -, -, -, -, hfirst⟩ := h
  obtain ⟨hdone, herr⟩ := hquiet (hbusy.2 (by simp [hs]))
  have hreset : s.cmd = 0#32 ∧ s.edcValue = 0#32 := hfirst (by simp [hs]) hdone herr
  refine ⟨hwf, ?_, ?_⟩
  · simp [Status.Consistent, hdone, herr, hcode herr]
  · simp [State.DescribesCommand, hdone, herr, hreset]

/-- A command in EXEC was accepted, so it runs to its end (R181, R218). -/
theorem State.Inv.exec_next {s t : State} (h : s.Inv) {c : Instr} (hs : s.seq = .exec c) (he : exec c s = .next t) : t.Inv := by
  obtain ⟨hwf, -, -, -, -, hexec, -⟩ := h
  obtain ⟨hdec, hrange⟩ := hexec c hs
  rcases exec_next_cases he with ⟨⟨hc, hr⟩, -⟩ | ⟨-, rfl⟩
  · exact absurd (hrange hc) (by simp [hr])
  · exact State.inv_runCommand hwf hdec

theorem State.Inv.busy_of_idle {s : State} (h : s.Inv) (hs : s.seq = .idle) : s.status.busy = false := by
  obtain ⟨-, ⟨hbusy, -⟩, -⟩ := h
  simpa [hs] using hbusy

/-- Whatever the word, a write to CMD on an idle block leaves a state that describes it (R181). -/
theorem State.Inv.commandWrite_next {s t : State} (h : s.Inv) (hs : s.seq = .idle) {w : Word}
    (he : commandWrite w s = .next t) : t.Inv := by
  have hbusy := h.busy_of_idle hs
  rcases commandWrite_next_cases he with ⟨why, hd, rfl⟩ | ⟨i, hd, he⟩
  · exact State.inv_reject h.wf hs hbusy ⟨why, hd⟩
  · rcases exec_next_cases he with ⟨⟨rfl, -⟩, rfl⟩ | ⟨-, rfl⟩
    · exact State.inv_reject h.wf hs hbusy hd
    · exact State.inv_runCommand h.wf hd

/-- Settles O54: by the cases of a step, each with the rule of its operation above. -/
theorem stepKeepsTheInvariant : Obligations.StepKeepsTheInvariant := by
  intro s t h hstep
  rcases step_cases hstep with ⟨rest, -, rfl⟩ | ⟨hs, rfl⟩ | ⟨c, hs, he⟩ | ⟨-, -, rfl⟩ | ⟨hs, a, rest, -, -, -, rfl⟩ |
    ⟨hs, off, size, rest, -, -, rfl⟩ | ⟨hs, off, size, v, rest, -, hacc, hc, rfl⟩ | ⟨hs, size, w, rest, -, -, he⟩
  · exact State.inv_assertReset _
  · exact h.endInit hs
  · exact h.exec_next hs he
  · exact h
  · exact h.of_idle hs h.wf rfl rfl rfl rfl
  · exact h.of_idle hs h.wf rfl rfl rfl rfl
  · have hwf : ((s.setPort rest).storeAt off size v).sector.wf :=
      State.wf_storeAt (s := s.setPort rest) h.wf off size v
    exact h.of_idle hs hwf (by simp) (by simp) (by simp [State.storeAt_cmd hacc hc]) (by simp)
  · have hport : ((s.setPort rest).respond [.okay]).Inv := h.of_idle hs h.wf rfl rfl rfl rfl
    exact hport.commandWrite_next hs he

/-! ### Frames -/

/-- Settles O36: a rejection writes STATUS alone, and a completed command has ERR = 0 and what its body makes of
EDC_VALUE. -/
theorem commandsWriteNoOtherRegister : Obligations.CommandsWriteNoOtherRegister := by
  intro i s t he
  rcases exec_next_cases he with ⟨-, rfl⟩ | ⟨-, rfl⟩
  · exact ⟨rfl, rfl, rfl, rfl, fun _ => rfl⟩
  · obtain ⟨-, hval, hcmd, hsrc, hlen, hdst, -, hst, -⟩ := s.runCommand_spec i
    refine ⟨hcmd, hsrc, hlen, hdst, fun hi => ?_⟩
    rcases hi with hi | herr
    · rw [hval, commandBody_edcValue hi]
    · simp [hst] at herr

/-- Settles O38: by the cases of a step; only a store to the sector window and a command touch the buffer. -/
theorem bytesKeepTheirValueUnlessWritten : Obligations.BytesKeepTheirValueUnlessWritten := by
  intro s t a h hno hstep hne
  rcases step_cases hstep with ⟨rest, hp, -⟩ | ⟨-, rfl⟩ | ⟨c, hs, he⟩ | ⟨-, -, rfl⟩ | ⟨-, b, rest, -, -, -, rfl⟩ |
    ⟨-, off, size, rest, -, -, rfl⟩ | ⟨hs, off, size, v, rest, hp, hacc, -, rfl⟩ | ⟨hs, size, w, rest, hp, hacc, he⟩
  · exact absurd hp (hno rest)
  · exact absurd rfl hne
  · refine .inr (.inr ⟨c, ?_, .inl hs⟩)
    by_contra hst
    exact hne (read_exec_outside h.wf he hst)
  · exact absurd rfl hne
  · exact absurd rfl hne
  · exact absurd rfl hne
  · obtain ⟨hoff, ⟨rfl, hin⟩ | ⟨rfl, hal, hlo, hhi⟩⟩ := State.storeAt_changes (s := s.setPort rest) h.wf hacc hne
    · exact .inl ⟨hs, off, v, rest, hp, hin, hoff⟩
    · exact .inr (.inl ⟨hs, off, v, rest, hp, hal, hlo, hhi, hoff⟩)
  · have hsize : size = 4 := by
      rcases (portAccepts_iff cmdOffset size).1 hacc with ⟨h4, -⟩ | ⟨-, hwin⟩
      · exact h4
      · exact absurd hwin (by decide)
    subst hsize
    rcases commandWrite_next_cases he with ⟨why, -, rfl⟩ | ⟨i, hd, he⟩
    · exact absurd rfl hne
    · refine .inr (.inr ⟨i, ?_, .inr ⟨hs, w, rest, hp, hd⟩⟩)
      by_contra hst
      exact hne (read_exec_outside (s := ((s.setPort rest).respond [.okay]).setCmd w) h.wf he
        (fun hin => hst ((storesTo_congr i a rfl rfl rfl).1 hin)))

/-! ### The STATUS word (R27) -/

/-- The bits of the STATUS word, over every value of its fields. -/
theorem Status.toWord_bits (st : Status) :
    st.toWord.getLsbD 0 = st.busy ∧ st.toWord.getLsbD 1 = st.done ∧ st.toWord.getLsbD 2 = st.err ∧
      st.toWord.getLsbD 3 = false ∧ st.toWord.extractLsb' 4 4 = st.errCode ∧ st.toWord.extractLsb' 8 24 = 0#24 := by
  obtain ⟨busy, done, err, errCode⟩ := st
  revert busy done err errCode
  decide

/-- Settles O55: the bits of the word are the fields of STATUS, which the invariant relates. -/
theorem statusWordIsConsistent : Obligations.StatusWordIsConsistent := by
  intro s h
  obtain ⟨-, ⟨hbusy, hquiet, hone, hcode, -⟩, -⟩ := h
  obtain ⟨hb, hd, he, h3, hc, hu⟩ := s.status.toWord_bits
  simp only [hb, hd, he, h3, hc, hu]
  refine ⟨?_, hone, hquiet, hcode, trivial, trivial⟩
  rw [hbusy]
  cases s.seq <;> simp

/-! ### Register accesses (R25, R68) -/

/-- Settles O44: each of the eight offsets selects its register, and an accepted read changes nothing else. -/
theorem registerReadsReturnTheRegisters : Obligations.RegisterReadsReturnTheRegisters := by
  intro s rest off v hs hp hmem
  have hreg : windowOf off = .registers ∧ portAccepts off 4 = true ∧ s.readReg (regOf off) = v := by
    simp only [List.mem_cons, List.not_mem_nil, or_false, Prod.mk.injEq] at hmem
    rcases hmem with ⟨rfl, rfl⟩ | ⟨rfl, rfl⟩ | ⟨rfl, rfl⟩ | ⟨rfl, rfl⟩ | ⟨rfl, rfl⟩ | ⟨rfl, rfl⟩ | ⟨rfl, rfl⟩ |
      ⟨rfl, rfl⟩ <;> exact ⟨by decide, by decide, by simp [regOf, State.readReg, Config.edcPoly, Config.gfPoly]⟩
  obtain ⟨hw, hacc, hv⟩ := hreg
  rw [step_read hs hp hacc, State.readAt_register s hw, hv]
  rfl

/-- A 4-byte write to a register other than CMD stores as the register does and gets OKAY (R68). -/
theorem step_writeReg {s : State} {off : Offset} {v : Word} {rest : List HostEvent} (hs : s.seq = .idle)
    (hp : s.port = wr32 off v :: rest) (hw : windowOf off = .registers) (hacc : portAccepts off 4 = true)
    (hc : off ≠ cmdOffset) : step s = .next (((s.setPort rest).writeReg (regOf off) v).respond [.okay]) := by
  rw [step_write hs hp hacc hc, State.storeAt_register _ hw]

/-- Settles O45: the operand registers are plain storage. -/
theorem operandRegistersStoreAllBits : Obligations.OperandRegistersStoreAllBits := by
  intro s v rest hs
  refine ⟨fun hp => ?_, fun hp => ?_, fun hp => ?_⟩
  · exact step_writeReg hs hp (by decide) (by decide) (by decide)
  · exact step_writeReg hs hp (by decide) (by decide) (by decide)
  · exact step_writeReg hs hp (by decide) (by decide) (by decide)

/-- Settles O46: the reads are two of O44's, and a write to either register stores nothing. -/
theorem polynomialRegistersAreConstant : Obligations.PolynomialRegistersAreConstant := by
  intro s v rest hs
  refine ⟨fun hp => ?_, fun hp => ?_, fun hp => ?_⟩
  · exact registerReadsReturnTheRegisters s rest _ _ hs hp (by simp)
  · exact registerReadsReturnTheRegisters s rest _ _ hs hp (by simp)
  · rcases hp with hp | hp
    · exact step_writeReg hs hp (by decide) (by decide) (by decide)
    · exact step_writeReg hs hp (by decide) (by decide) (by decide)

/-! ### The constant tables (R34, R35) -/

/-- Two numbers whose highest bit is bit 8 have an exclusive-or below 256. -/
theorem xor_lt_256 {x y : Nat} (hx : 256 ≤ x ∧ x < 512) (hy : 256 ≤ y ∧ y < 512) : x ^^^ y < 256 := by
  have hbit : ∀ {z : Nat} (j : Nat), 256 ≤ z ∧ z < 512 → 8 ≤ j → z.testBit j = decide (j = 8) := by
    intro z j hz hj
    rcases Nat.lt_or_eq_of_le hj with hj | rfl
    · have : 2 ^ 9 ≤ 2 ^ j := Nat.pow_le_pow_right (by decide) hj
      rw [Nat.testBit_lt_two_pow (by omega), decide_eq_false (by omega)]
    · rw [Nat.testBit_eq_decide_div_mod_eq, Nat.div_eq_of_lt_le (k := 1) (by omega) (by omega)]
      rfl
  refine Nat.lt_pow_two_of_testBit (n := 8) _ (fun j hj => ?_)
  rw [Nat.testBit_xor, hbit j hx hj, hbit j hy hj, Bool.xor_self]

/-- Bit 7 of a byte tells whether it is at least 128. -/
theorem byte_getLsbD_7 (i : Byte) : i.getLsbD 7 = decide (128 ≤ i.toNat) := by
  rw [← BitVec.testBit_toNat, Nat.testBit_eq_decide_div_mod_eq]
  have hi := i.isLt
  exact decide_eq_decide.2 (by omega)

/-- `ECC_F[i]` in natural numbers: twice `i`, with GF_POLY added when bit 7 of `i` is 1, cut to a byte (R34). -/
theorem toNat_eccF (i : Byte) :
    (eccF i).toNat = ((2 * i.toNat) ^^^ (if i.toNat < 128 then 0 else 0x11D)) % 256 := by
  have hi := i.isLt
  by_cases h : i.toNat < 128
  · have hbit : i.getLsbD 7 = false := (byte_getLsbD_7 i).trans (decide_eq_false (by omega))
    rw [eccF, hbit]
    simp [h, Nat.shiftLeft_eq, Nat.mul_comm]
  · have hbit : i.getLsbD 7 = true := (byte_getLsbD_7 i).trans (decide_eq_true (by omega))
    have hcut : ((2 * i.toNat) ^^^ 285) % 256 = (2 * i.toNat % 256) ^^^ 29 := Nat.xor_mod_two_pow (n := 8)
    rw [eccF, hbit]
    simp [h, Nat.shiftLeft_eq, Nat.mul_comm, Config.gfPoly, hcut]

/-- Settles O58: below 128 nothing leaves the byte, from 128 on GF_POLY cancels bit 8. -/
theorem eccFIsMultiplicationByAlpha : Obligations.EccFIsMultiplicationByAlpha := by
  intro i
  have hi := i.isLt
  rw [toNat_eccF]
  by_cases h : i.toNat < 128
  · simp only [if_pos h, Nat.xor_zero]
    omega
  · have hlt : (2 * i.toNat) ^^^ 0x11D < 256 := xor_lt_256 (by omega) (by omega)
    simp only [if_neg h]
    exact ⟨Nat.mod_eq_of_lt hlt, by omega⟩

/-- Settles O59: ECC_B undoes the map, so the map is injective, and on 256 bytes a bijection. -/
theorem eccBDividesByAlphaPlusOne : Obligations.EccBDividesByAlphaPlusOne := by
  refine ⟨eccB_xor_eccF, fun y => ?_, fun y => ?_⟩
  · obtain ⟨i, rfl⟩ := exists_xor_eccF y
    refine ⟨i, rfl, fun j hj => ?_⟩
    rw [← eccB_xor_eccF j, hj, eccB_xor_eccF]
  · rw [BitVec.xor_comm, eccB_divides]

/-! ### INIT (R32, R71, R211) -/

/-- A status read at the port is the access `rd32 0x1004` (R71). -/
theorem HostEvent.eq_of_isStatusRead {e : HostEvent} (h : e.isStatusRead = true) : e = rd32 0x1004#14 :=
  beq_iff_eq.1 h

/-- Settles O60: the step is the end of INIT, whose window answers STATUS reads alone. -/
theorem initEndsAndChangesNothingElse : Obligations.InitEndsAndChangesNothingElse := by
  intro s hs hreset hdur
  obtain ⟨k, hresp, hport, hpolls⟩ := s.endInit_port_responses
  exact ⟨s.endInit, step_init hs hreset hdur, rfl, rfl, rfl, rfl, rfl, rfl, rfl, rfl, k, hport,
    fun e he => HostEvent.eq_of_isStatusRead (hpolls e he), hresp⟩

end Sys2Proof.Machine

/-! # Proofs: the host port, and GEN run twice (spec/20_memory.md)

The accesses of one window follow the rules of `Laws/Port.lean`; what a command gives at the port is said once, for
O47 and O48; what a GEN command stores is shown to depend on its input set alone, for O19. -/

namespace Sys2Proof.Machine

/-! ### GEN reads its input set only (R167) -/

/-- Buffers that agree on the source of a pass have the same parity bytes after it (R131). -/
theorem Memory.read_eccBlock_congr {m m' : Memory} (hm : m.wf) (hm' : m'.wf) {p : EccParams} (hp : p.Fits)
    (h : ∀ a, eccSrc ≤ a → a < eccSrc + p.size → m.read a = m'.read a) {a : Nat} (hlo : p.dst ≤ a)
    (hhi : a < p.dst + 2 * p.majorCount) : (m.eccBlock p).read a = (m'.eccBlock p).read a := by
  rw [Memory.read_eccBlock hm hp, Memory.read_eccBlock hm' hp]
  by_cases h0 : a < p.dst + p.majorCount
  · rw [if_pos ⟨hlo, h0⟩, if_pos ⟨hlo, h0⟩, Memory.eccColumn_congr hp (by omega) h]
  · rw [if_neg (by omega), if_pos (by omega), if_neg (by omega), if_pos (by omega),
      Memory.eccColumn_congr hp (by omega) h]

/-- P and Q depend on the bytes 0x00C to 0x81B alone, since Q reads the P bytes that P has just written (R135). -/
theorem Memory.read_eccPQ_congr {m m' : Memory} (hm : m.wf) (hm' : m'.wf)
    (h : ∀ a, 0x00C ≤ a → a < 0x81C → m.read a = m'.read a) {a : Nat} (hlo : 0x00C ≤ a) (hhi : a < 0x930) :
    m.eccPQ.read a = m'.eccPQ.read a := by
  have hsrc : eccSrc = 0x00C := rfl
  have hP : paramsP.dst = 0x81C ∧ paramsP.majorCount = 86 ∧ paramsP.size = 2064 := ⟨rfl, rfl, rfl⟩
  have hQ : paramsQ.dst = 0x8C8 ∧ paramsQ.majorCount = 52 ∧ paramsQ.size = 2236 := ⟨rfl, rfl, rfl⟩
  have hwf := Memory.wf_eccBlock hm paramsP_fits
  have hwf' := Memory.wf_eccBlock hm' paramsP_fits
  have hafterP : ∀ b, 0x00C ≤ b → b < 0x8C8 → (m.eccBlock paramsP).read b = (m'.eccBlock paramsP).read b := by
    intro b hb hb'
    by_cases hdst : b < 0x81C
    · rw [Memory.read_eccBlock_outside hm paramsP_fits (by omega),
        Memory.read_eccBlock_outside hm' paramsP_fits (by omega), h b hb hdst]
    · exact Memory.read_eccBlock_congr hm hm' paramsP_fits (fun c hc hc' => h c (by omega) (by omega)) (by omega) (by omega)
  by_cases hdst : a < 0x8C8
  · rw [Memory.eccPQ, Memory.eccPQ, Memory.read_eccBlock_outside hwf paramsQ_fits (by omega),
      Memory.read_eccBlock_outside hwf' paramsQ_fits (by omega), hafterP a hlo hdst]
  · exact Memory.read_eccBlock_congr hwf hwf' paramsQ_fits (fun c hc hc' => hafterP c (by omega) (by omega)) (by omega)
      (by omega)

/-- With ZA = 1 the parity bytes do not depend on the address bytes 0x00C to 0x00F either (R136). -/
theorem Memory.read_withZeroAddress_eccPQ_congr {m m' : Memory} (hm : m.wf) (hm' : m'.wf) (za : Bool)
    (h : ∀ a, 0x00C ≤ a → a < 0x81C → (za = true → 0x010 ≤ a) → m.read a = m'.read a) {a : Nat} (hlo : 0x010 ≤ a)
    (hhi : a < 0x930) :
    (m.withZeroAddress za Memory.eccPQ).read a = (m'.withZeroAddress za Memory.eccPQ).read a := by
  have hwfPQ : ∀ n : Memory, n.wf → n.eccPQ.wf := fun _ hn => Memory.wf_eccPQ hn
  rw [Memory.read_withZeroAddress hm za hwfPQ, Memory.read_withZeroAddress hm' za hwfPQ]
  cases za with
  | false =>
    rw [if_neg Bool.false_ne_true, if_neg Bool.false_ne_true]
    exact Memory.read_eccPQ_congr hm hm' (fun b hb hb' => h b hb hb' (by simp)) (by omega) hhi
  | true =>
    rw [if_pos rfl, if_pos rfl, if_neg (by omega), if_neg (by omega)]
    refine Memory.read_eccPQ_congr (Memory.wf_writeBytes hm _ _) (Memory.wf_writeBytes hm' _ _) (fun b hb hb' => ?_)
      (by omega) hhi
    rw [Memory.read_zeroed hm, Memory.read_zeroed hm']
    by_cases hadr : b < 0x010
    · rw [if_pos ⟨hb, hadr⟩, if_pos ⟨hb, hadr⟩]
    · rw [if_neg (by omega), if_neg (by omega), h b hb hb' (fun _ => by omega)]

/-- The same bytes written over two buffers leave them equal wherever they were equal, and where the bytes lie. -/
theorem Memory.read_writeBytes_congr {m m' : Memory} (hm : m.wf) (hm' : m'.wf) {o : Nat} {bs : List Byte}
    (hfit : o + bs.length ≤ Config.sectorSize) {a : Nat} (h : a < o ∨ o + bs.length ≤ a → m.read a = m'.read a) :
    (m.writeBytes o bs).read a = (m'.writeBytes o bs).read a := by
  rw [Memory.read_writeBytes hm o bs hfit, Memory.read_writeBytes hm' o bs hfit]
  by_cases hin : o ≤ a ∧ a < o + bs.length
  · rw [if_pos hin, if_pos hin]
  · rw [if_neg hin, if_neg hin, h (by omega)]

/-- The EDC of equal regions is the same, so `edcStore` leaves buffers equal wherever they were equal, and at its
destination (R112). -/
theorem State.read_edcStore_congr {s t : State} (hs : s.sector.wf) (ht : t.sector.wf) {r : EdcRegion}
    (hdst : r.dst + 4 ≤ Config.sectorSize)
    (hsrc : ∀ a, r.start ≤ a → a < r.start + r.len → s.sector.read a = t.sector.read a) {a : Nat}
    (h : a < r.dst ∨ r.dst + 4 ≤ a → s.sector.read a = t.sector.read a) :
    (s.edcStore r).sector.read a = (t.edcStore r).sector.read a := by
  rw [State.edcStore_sector, State.edcStore_sector, edcCompute_congr hsrc]
  exact Memory.read_writeBytes_congr hs ht hdst h

/-- The input set of a GEN command (R167); the other commands have none here. -/
def genInput : Instr → Nat → Prop
  | .genT1, a => a < 0x810
  | .genT2, a => 0x010 ≤ a ∧ a < 0x818
  | .genT3, a => 0x010 ≤ a ∧ a < 0x92C
  | _, _ => False

/-- What the bodies of the three GEN commands leave in the buffer (R163 to R165). -/
theorem commandBody_genT1_sector (s : State) : (commandBody .genT1 s).sector =
    ((s.edcStore ⟨0x000, 0x810, 0x810⟩).sector.writeBytes 0x814 (List.replicate 8 0#8)).withZeroAddress false
      Memory.eccPQ := by
  simp only [commandBody, State.generate, layoutT1, State.mapSector_sector, if_true, zeroPadOffset, zeroPadLength]

theorem commandBody_genT2_sector (s : State) : (commandBody .genT2 s).sector =
    (s.edcStore ⟨0x010, 0x808, 0x818⟩).sector.withZeroAddress true Memory.eccPQ := by
  simp only [commandBody, State.generate, layoutT2, State.mapSector_sector, Bool.false_eq_true, if_false]

theorem commandBody_genT3_sector (s : State) : (commandBody .genT3 s).sector =
    (s.edcStore ⟨0x010, 0x91C, 0x92C⟩).sector := rfl

theorem commandBody_genT1_edcValue (s : State) :
    (commandBody .genT1 s).edcValue = edcCompute s.sector 0x000 0x810 := by
  simp only [commandBody, State.generate, layoutT1, State.mapSector_edcValue, State.edcStore_edcValue, if_true]

theorem commandBody_genT2_edcValue (s : State) :
    (commandBody .genT2 s).edcValue = edcCompute s.sector 0x010 0x808 := by
  simp only [commandBody, State.generate, layoutT2, State.mapSector_edcValue, State.edcStore_edcValue,
    Bool.false_eq_true, if_false]

theorem commandBody_genT3_edcValue (s : State) :
    (commandBody .genT3 s).edcValue = edcCompute s.sector 0x010 0x91C := by
  simp only [commandBody, State.generate, layoutT3, State.edcStore_edcValue, Bool.false_eq_true, if_false]

/-- The outputs of a GEN command, the bytes it stores and EDC_VALUE, depend on its input set only (R167). -/
theorem commandBody_gen_congr {i : Instr} (hi : i = .genT1 ∨ i = .genT2 ∨ i = .genT3) {s t : State} (hs : s.sector.wf)
    (ht : t.sector.wf) (h : ∀ a, genInput i a → s.sector.read a = t.sector.read a) :
    (commandBody i s).edcValue = (commandBody i t).edcValue ∧
    ∀ a, storesTo i s a → (commandBody i s).sector.read a = (commandBody i t).sector.read a := by
  rcases hi with rfl | rfl | rfl
  · have hsrc : ∀ a, 0x000 ≤ a → a < 0x000 + 0x810 → s.sector.read a = t.sector.read a := fun a _ h' => h a h'
    refine ⟨?_, fun a ⟨hlo, hhi⟩ => ?_⟩
    · rw [commandBody_genT1_edcValue, commandBody_genT1_edcValue, edcCompute_congr hsrc]
    · have hpad : (List.replicate 8 0#8).length = 8 := rfl
      rw [commandBody_genT1_sector, commandBody_genT1_sector]
      refine Memory.read_withZeroAddress_eccPQ_congr (Memory.wf_writeBytes (State.wf_edcStore hs _) _ _)
        (Memory.wf_writeBytes (State.wf_edcStore ht _) _ _) false (fun b hb hb' _ => ?_) (by omega) hhi
      refine Memory.read_writeBytes_congr (State.wf_edcStore hs _) (State.wf_edcStore ht _) (by decide)
        (fun hkeep => ?_)
      exact State.read_edcStore_congr hs ht (by decide) hsrc (fun hout => h b (show b < 0x810 by simp only at hout; omega))
  · have hsrc : ∀ a, 0x010 ≤ a → a < 0x010 + 0x808 → s.sector.read a = t.sector.read a :=
      fun a hlo hhi => h a ⟨hlo, hhi⟩
    refine ⟨?_, fun a ⟨hlo, hhi⟩ => ?_⟩
    · rw [commandBody_genT2_edcValue, commandBody_genT2_edcValue, edcCompute_congr hsrc]
    · rw [commandBody_genT2_sector, commandBody_genT2_sector]
      refine Memory.read_withZeroAddress_eccPQ_congr (State.wf_edcStore hs _) (State.wf_edcStore ht _) true
        (fun b hb hb' hadr => ?_) (by omega) hhi
      exact State.read_edcStore_congr hs ht (by decide) hsrc
        (fun hout => h b ⟨hadr rfl, by simp only at hout; omega⟩)
  · have hsrc : ∀ a, 0x010 ≤ a → a < 0x010 + 0x91C → s.sector.read a = t.sector.read a :=
      fun a hlo hhi => h a ⟨hlo, hhi⟩
    refine ⟨?_, fun a ⟨hlo, hhi⟩ => ?_⟩
    · rw [commandBody_genT3_edcValue, commandBody_genT3_edcValue, edcCompute_congr hsrc]
    · rw [commandBody_genT3_sector, commandBody_genT3_sector]
      exact State.read_edcStore_congr hs ht (by decide) hsrc
        (fun hout => h a ⟨by omega, by simp only at hout; omega⟩)

/-- No GEN command stores to its own input set. -/
theorem not_storesTo_of_genInput {i : Instr} {a : Nat} (h : genInput i a) (s : State) : ¬ storesTo i s a := by
  intro hst
  cases i with
  | genT1 => exact absurd h (Nat.not_lt.2 hst.1)
  | genT2 => exact absurd h.2 (Nat.not_lt.2 hst.1)
  | genT3 => exact absurd h.2 (Nat.not_lt.2 hst.1)
  | _ => exact h

/-- An accepted GEN command leaves the buffer and the EDC_VALUE of its body. -/
theorem exec_gen {i : Instr} (hi : i = .genT1 ∨ i = .genT2 ∨ i = .genT3) {s t : State} (h : exec i s = .next t) :
    t.sector = (commandBody i s).sector ∧ t.edcValue = (commandBody i s).edcValue := by
  rcases exec_next_cases h with ⟨⟨rfl, -⟩, -⟩ | ⟨-, rfl⟩
  · simp at hi
  · obtain ⟨hsec, hval, -⟩ := s.runCommand_spec i
    exact ⟨hsec, hval⟩

/-- Settles O19: the first run leaves the input set as it was, so the second stores the same bytes again. -/
theorem genTwiceIsGenOnce : Obligations.GenTwiceIsGenOnce := by
  intro i s t u hi hs ht hu
  obtain ⟨hsec, hval⟩ := exec_gen hi ht
  obtain ⟨hsec', hval'⟩ := exec_gen hi hu
  have hwf : t.sector.wf := hsec ▸ wf_commandBody i hs
  have hin : ∀ a, genInput i a → t.sector.read a = s.sector.read a :=
    fun a ha => read_exec_outside hs ht (not_storesTo_of_genInput ha s)
  obtain ⟨hsameValue, hsameBytes⟩ := commandBody_gen_congr hi hwf hs hin
  refine ⟨Memory.ext_read (hsec' ▸ wf_commandBody i hwf) hwf (fun a => ?_), by rw [hval', hval, hsameValue]⟩
  by_cases ha : storesTo i t a
  · rw [hsec', hsameBytes a ha, hsec]
  · exact read_exec_outside hwf hu ha

/-! ### What a command gives at the port (R71, R181) -/

/-- A command ends, and gives no response but those of the STATUS reads answered while it is BUSY; a rejected one gives
none (R71, R184). -/
theorem exec_pollsAnswered (i : Instr) (s : State) :
    ∃ t, exec i s = .next t ∧ ∃ k, s.pollsAnswered t k 0x00000001#32 := by
  rcases exec_cases i s with ⟨-, he⟩ | ⟨-, he⟩
  · exact ⟨_, he, 0, rfl, by simp, by simp⟩
  · obtain ⟨-, -, -, -, -, -, -, -, -, k, hresp, hport, hpolls⟩ := s.runCommand_spec i
    exact ⟨_, he, k, hport, fun e h => HostEvent.eq_of_isStatusRead (hpolls e h), hresp⟩

/-- Settles O48: a command's window by the rule above, INIT's by the statement about the end of INIT. -/
theorem busyWindowAnswersStatusReadsOnly : Obligations.BusyWindowAnswersStatusReadsOnly := by
  refine ⟨fun i s t he => ?_, fun s t hs hreset hdur hstep => ?_⟩
  · obtain ⟨t', he', hpolls⟩ := exec_pollsAnswered i s
    obtain rfl := Host.Outcome.next.inj (he.symm.trans he')
    exact hpolls
  · obtain ⟨t', hstep', -, -, -, -, -, -, -, -, hpolls⟩ := initEndsAndChangesNothingElse s hs hreset hdur
    obtain rfl := Host.Outcome.next.inj (hstep.symm.trans hstep')
    exact hpolls

/-- Whatever the word, a write to CMD ends and adds data responses only (R71, R181). -/
theorem commandWrite_responses (w : Word) (s : State) :
    ∃ t k, commandWrite w s = .next t ∧ t.responses = s.responses ++ List.replicate k (.data 0x00000001#32) := by
  cases hd : decode w with
  | illegal why => exact ⟨(s.setCmd w).reject .illegalCmd, 0, by simp only [commandWrite, hd], by simp⟩
  | command i =>
    obtain ⟨t, he, k, -, -, hresp⟩ := exec_pollsAnswered i (s.setCmd w)
    exact ⟨t, k, by simp only [commandWrite, hd, he], hresp⟩

/-- Settles O5: the access is a write to CMD, and its word decodes to `i`. -/
theorem stepRunsTheCommandWritten : Obligations.StepRunsTheCommandWritten := by
  intro s w i rest hs hp hd
  rw [step_cmd hs hp, commandWrite, hd]
  rfl

/-! ### BUSERR (R69, R186) -/

/-- An accepted access ends, and its own response is no BUSERR (R65 to R70). -/
theorem step_accepted {s : State} {a : Access} {rest : List HostEvent} (hs : s.seq = .idle)
    (hp : s.port = .access a :: rest) (ha : a.accepted = true) :
    ∃ t r rs, step s = .next t ∧ t.responses = s.responses ++ r :: rs ∧ r ≠ .busErr := by
  cases a with
  | read off size => exact ⟨_, _, [], step_read hs hp ha, rfl, by simp⟩
  | write off size v =>
    by_cases hc : off = cmdOffset
    · obtain ⟨t, k, ht, hresp⟩ := commandWrite_responses v ((s.setPort rest).respond [.okay])
      refine ⟨t, .okay, List.replicate k (.data 0x00000001#32), ?_, by simpa using hresp, by simp⟩
      rw [step_access hs hp, performAccess, if_pos ha]
      simpa only [if_pos hc] using ht
    · exact ⟨_, .okay, [], step_write hs hp ha hc, by simp, by simp⟩

/-- The two things a BUSERR can be to the host (R186). -/
theorem deliverBusErr_cases (s : State) :
    (Config.onBusErr s.responses.length = .goesOn ∧ deliverBusErr s = .next (s.respond [.busErr])) ∨
    (Config.onBusErr s.responses.length = .faults ∧ deliverBusErr s = .fault .busError) := by
  cases h : Config.onBusErr s.responses.length with
  | goesOn => exact .inl ⟨rfl, by simp only [deliverBusErr, h]⟩
  | faults => exact .inr ⟨rfl, by simp only [deliverBusErr, h]⟩

/-- Settles O47: the unsupported accesses are the ones that the port does not accept. -/
theorem busErrExactlyOnUnsupportedAccesses : Obligations.BusErrExactlyOnUnsupportedAccesses := by
  intro s off size v a rest hs ha hp unsupported
  have hacc : a.accepted = portAccepts off size := by
    rcases ha with rfl | rfl <;> rfl
  have hiff : unsupported ↔ ¬ portAccepts off size = true := by
    rw [portAccepts_iff]
    omega
  refine ⟨fun hu => ?_, fun hu => ?_⟩
  · have hno : a.accepted = false := by simpa [hacc] using hiff.1 hu
    rw [step_busErr hs hp hno]
    exact deliverBusErr_cases (s.setPort rest)
  · have hyes : a.accepted = true := by simpa [hacc] using mt hiff.2 hu
    obtain ⟨t, r, rs, hstep, hresp, hr⟩ := step_accepted hs hp hyes
    exact ⟨t, hstep, by simpa [hresp] using hr⟩

/-! ### The sector window (R62, R64, R65) -/

/-- Below the register window no offset is CMD's. -/
theorem ne_cmdOffset_of_lt {off : Offset} (h : off.toNat < 0x1000) : off ≠ cmdOffset := by
  rintro rfl
  exact absurd h (by decide)

/-- A 1-byte write to the sector window (R64). -/
theorem step_writeSectorByte {s : State} {off : Offset} {v : Word} {rest : List HostEvent} (hs : s.seq = .idle)
    (hp : s.port = wr8 off v :: rest) (ho : off.toNat < 0x930) :
    step s = .next (((s.setPort rest).setSector (s.sector.write off.toNat (v.extractLsb' 0 8))).respond [.okay]) := by
  rw [step_write hs hp (portAccepts_sectorByte ho) (ne_cmdOffset_of_lt (by omega)), State.storeAt_sectorByte _ ho]
  rfl

/-- An aligned 4-byte write to the sector window (R64). -/
theorem step_writeSectorWord {s : State} {off : Offset} {v : Word} {rest : List HostEvent} (hs : s.seq = .idle)
    (hp : s.port = wr32 off v :: rest) (hal : off.toNat % 4 = 0) (ho : off.toNat < 0x930) :
    step s = .next (((s.setPort rest).setSector (s.sector.storeLE32 off.toNat v)).respond [.okay]) := by
  rw [step_write hs hp (portAccepts_word hal) (ne_cmdOffset_of_lt (by omega)), State.storeAt_sectorWord _ ho]
  rfl

/-- An aligned 4-byte read of the sector window (R65). -/
theorem step_readSectorWord {s : State} {off : Offset} {rest : List HostEvent} (hs : s.seq = .idle)
    (hp : s.port = rd32 off :: rest) (hal : off.toNat % 4 = 0) (ho : off.toNat < 0x930) :
    step s = .next ((s.setPort rest).respond [.data (s.sector.loadLE32 off.toNat)]) := by
  rw [step_read hs hp (portAccepts_word hal), State.readAt_sectorWord s ho]

/-- Settles O39: the port's rule for each size, with read after write in the buffer. -/
theorem sectorWriteStoresItsBytes : Obligations.SectorWriteStoresItsBytes := by
  intro s off v rest hs hwf
  have hsize : Config.sectorSize = 2352 := rfl
  refine ⟨fun hp ho => ?_, fun hp hal ho => ?_⟩
  · refine ⟨s.sector.write off.toNat (v.extractLsb' 0 8), step_writeSectorByte hs hp (by omega), fun a => ?_⟩
    rw [Memory.read_write hwf]
    exact if_congr (and_iff_left (by omega)) rfl rfl
  · exact ⟨_, step_writeSectorWord hs hp hal (by omega), fun k hk => Memory.read_storeLE32 hwf (by omega) v hk,
      fun a ha => Memory.read_storeLE32_outside hwf _ v ha⟩

/-- Settles O40: the port's rule for each size. -/
theorem sectorReadReturnsItsBytes : Obligations.SectorReadReturnsItsBytes := by
  intro s off rest hs
  refine ⟨fun hp ho => ?_, fun hp hal ho => ?_⟩
  · rw [step_read hs hp (portAccepts_sectorByte (by omega)), State.readAt_sectorByte s (by omega)]
    rfl
  · rw [step_readSectorWord hs hp hal (by omega), Memory.loadLE32, leWord_eq]
    rfl

/-- Settles O41: the word stored by the first step is the word that the second loads. -/
theorem sectorWordReadsBackAsWritten : Obligations.SectorWordReadsBackAsWritten := by
  intro s t u off v rest hs hwf hp hal ho ht hu
  have hsize : Config.sectorSize = 2352 := rfl
  have ht := Host.Outcome.next.inj (ht.symm.trans (step_writeSectorWord hs hp hal (by omega)))
  have hseq : t.seq = .idle := by rw [ht]; exact hs
  have hport : t.port = rd32 off :: rest := by rw [ht]; rfl
  rw [Host.Outcome.next.inj (hu.symm.trans (step_readSectorWord hseq hport hal (by omega))), ht]
  simp [Memory.loadLE32_storeLE32 hwf (show off.toNat + 4 ≤ Config.sectorSize by omega)]

/-! ### Read-only and reserved offsets (R66) -/

theorem windowOf_of_reservedOffset {off : Offset} (h : reservedOffset off) : windowOf off = .reserved :=
  windowOf_reserved (by unfold reservedOffset at h; omega)

/-- An accepted write that stores nothing changes nothing but that it has its OKAY (R66). -/
theorem step_ignoredWrite {s : State} {off : Offset} {size : Nat} {v : Word} {rest : List HostEvent} (hs : s.seq = .idle)
    (hp : s.port = .access (.write off size v) :: rest) (ha : portAccepts off size = true) (hc : off ≠ cmdOffset)
    (hst : (s.setPort rest).storeAt off size v = s.setPort rest) :
    step s = .next { s with port := rest, responses := s.responses ++ [.okay] } := by
  rw [step_write hs hp ha hc, hst]
  rfl

/-- The four read-only registers store nothing (R26 to R30, R66). -/
theorem State.storeAt_readOnlyReg {off : Offset} (h : off ∈ [0x1004#14, 0x1008#14, 0x1018#14, 0x101C#14]) (s : State)
    (size : Nat) (v : Word) : s.storeAt off size v = s := by
  simp only [List.mem_cons, List.not_mem_nil, or_false] at h
  rcases h with rfl | rfl | rfl | rfl <;>
    exact (s.storeAt_register (by decide) size v).trans (by simp [regOf, State.writeReg])

/-- A write outside the sector window and the register window stores nothing, nor does one to a read-only register, and
none of these offsets is CMD's. -/
theorem readOnly_storesNothing {off : Offset}
    (h : off ∈ [0x1004#14, 0x1008#14, 0x1018#14, 0x101C#14] ∨ (0x2000 ≤ off.toNat ∧ off.toNat < 0x2600) ∨
      reservedOffset off) : off ≠ cmdOffset ∧ ∀ (s : State) (size : Nat) (v : Word), s.storeAt off size v = s := by
  have hcmd : cmdOffset.toNat = 0x1000 := rfl
  rcases h with h | h | h
  · refine ⟨?_, State.storeAt_readOnlyReg h⟩
    rintro rfl
    exact absurd h (by decide)
  · exact ⟨by rintro rfl; omega, fun s => s.storeAt_ignored (.inr h)⟩
  · refine ⟨?_, fun s => s.storeAt_ignored (.inl (windowOf_of_reservedOffset h))⟩
    rintro rfl
    unfold reservedOffset at h
    omega

/-- Settles O42: each of these writes is accepted and stores nothing, and the reserved windows read 0. -/
theorem readOnlyAndReservedIgnoreWrites : Obligations.ReadOnlyAndReservedIgnoreWrites := by
  intro s off v rest hs
  refine ⟨fun hp hal hro => ?_, fun hp hlo hhi => ?_, fun hp hal hres => ?_⟩
  · obtain ⟨hc, hst⟩ := readOnly_storesNothing hro
    exact step_ignoredWrite hs hp (portAccepts_word hal) hc (hst _ _ _)
  · obtain ⟨hc, hst⟩ := readOnly_storesNothing (off := off) (.inr (.inl ⟨by omega, hhi⟩))
    exact step_ignoredWrite hs hp (portAccepts_tableByte hlo hhi) hc (hst _ _ _)
  · rw [step_read hs hp (portAccepts_word hal), State.readAt_reserved s (windowOf_of_reservedOffset hres)]
    rfl

/-! ### The table windows (R67) -/

theorem toNat_edcLutOffset (i : Byte) : (0x2000#14 + BitVec.ofNat 14 (4 * i.toNat)).toNat = 0x2000 + 4 * i.toNat := by
  have hi := i.isLt
  simp only [BitVec.toNat_add, BitVec.toNat_ofNat]
  omega

theorem toNat_eccFOffset (i : Byte) : (0x2400#14 + i.setWidth 14).toNat = 0x2400 + i.toNat := by
  have hi := i.isLt
  simp only [BitVec.toNat_add, BitVec.toNat_ofNat, BitVec.toNat_setWidth]
  omega

theorem toNat_eccBOffset (i : Byte) : (0x2500#14 + i.setWidth 14).toNat = 0x2500 + i.toNat := by
  have hi := i.isLt
  simp only [BitVec.toNat_add, BitVec.toNat_ofNat, BitVec.toNat_setWidth]
  omega

/-- The entry at index `i`. -/
theorem tableByte_toNat (table : Byte → Byte) (i : Byte) : tableByte table i.toNat = table i := by
  rw [tableByte, BitVec.ofNat_toNat, BitVec.setWidth_eq]

/-- The four entries from index `i` on, highest first. -/
theorem tableWord_toNat (table : Byte → Byte) (i : Byte) :
    tableWord table i.toNat = table (i + 3) ++ table (i + 2) ++ table (i + 1) ++ table i := by
  have hnext : ∀ k : Nat, tableByte table (i.toNat + k) = table (i + BitVec.ofNat 8 k) := fun k => by
    rw [tableByte, BitVec.ofNat_add, BitVec.ofNat_toNat, BitVec.setWidth_eq]
  rw [tableWord, leWord_eq, tableByte_toNat, hnext, hnext, hnext]
  rfl

/-- Settles O43: each offset lies in its window, `i` entries from its start. -/
theorem tableWindowsReadTheTables : Obligations.TableWindowsReadTheTables := by
  intro s i rest hs
  have hi := i.isLt
  have hL := toNat_edcLutOffset i
  have hF := toNat_eccFOffset i
  have hB := toNat_eccBOffset i
  refine ⟨fun hp => ?_, fun hp => ?_, fun hp => ?_, fun hp hal => ?_, fun hp hal => ?_⟩
  · rw [step_read hs hp (portAccepts_word (by omega)), State.readAt_edcLut s (by omega) (by omega), hL,
      show (0x2000 + 4 * i.toNat - 0x2000) / 4 = i.toNat by omega, BitVec.ofNat_toNat, BitVec.setWidth_eq]
    rfl
  · rw [step_read hs hp (portAccepts_tableByte (by omega) (by omega)), State.readAt_eccFByte s (by omega) (by omega), hF,
      Nat.add_sub_cancel_left, tableByte_toNat]
    rfl
  · rw [step_read hs hp (portAccepts_tableByte (by omega) (by omega)), State.readAt_eccBByte s (by omega) (by omega), hB,
      Nat.add_sub_cancel_left, tableByte_toNat]
    rfl
  · rw [step_read hs hp (portAccepts_word (by omega)), State.readAt_eccFWord s (by omega) (by omega), hF,
      Nat.add_sub_cancel_left, tableWord_toNat]
    rfl
  · rw [step_read hs hp (portAccepts_word (by omega)), State.readAt_eccBWord s (by omega) (by omega), hB,
      Nat.add_sub_cancel_left, tableWord_toNat]
    rfl

/-! ### The platform window (R60) -/

/-- Inside the window an address has the offset of its distance from BASE, outside it has none. -/
theorem blockOffset_inside {addr : Nat} (h : Config.base ≤ addr ∧ addr < Config.base + 0x4000) :
    blockOffset addr = some (BitVec.ofNat 14 (addr - Config.base)) := if_pos h

theorem blockOffset_outside {addr : Nat} (h : addr < Config.base ∨ Config.base + 0x4000 ≤ addr) :
    blockOffset addr = none := if_neg (fun ⟨hlo, hhi⟩ => by simp only [Config.windowSize] at hhi; omega)

/-- Settles O49: an offset is below 0x4000, so BASE plus it lies in the window and gives it back. -/
theorem platformWindowIsDecoded : Obligations.PlatformWindowIsDecoded := by
  refine ⟨fun off => ?_, fun addr => ⟨fun ⟨off, h⟩ => ?_, fun h => ⟨_, blockOffset_inside h⟩⟩, fun s addr size v h => ?_⟩
  · rw [blockOffset_inside ⟨Nat.le_add_right _ _, Nat.add_lt_add_left off.isLt _⟩, Nat.add_sub_cancel_left,
      BitVec.ofNat_toNat, BitVec.setWidth_eq]
  · by_contra hout
    rw [blockOffset_outside (by omega)] at h
    simp at h
  · simp only [State.issueRead, State.issueWrite, blockOffset_outside h, and_self]

end Sys2Proof.Machine

/-! # Proofs: the command word, and the host's sync (spec/30_encoding.md)

`decode_describes` says once what decoding a word gives: a command whose encoding the word is, or a clause of R94 that the
word breaks. With `decode_encode` it settles the statements about decoding. -/

namespace Sys2Proof

/-! ### The legal words -/

/-- Every command: the two values of ZA make twelve of the nine constructors (R91, R93). -/
def allInstrs : List Instr :=
  [.nop, .genT0, .genT1, .genT2, .genT3, .edc, .eccp false, .eccp true, .eccq false, .eccq true, .eccpq false, .eccpq true]

theorem mem_allInstrs (i : Instr) : i ∈ allInstrs := by
  cases i with
  | nop | genT0 | genT1 | genT2 | genT3 | edc => decide
  | eccp za | eccq za | eccpq za => cases za <;> decide

/-- Decoding the word of a command gives the command back. -/
theorem decode_encode (i : Instr) : decode (encode i) = .command i :=
  (by decide : ∀ i ∈ allInstrs, decode (encode i) = .command i) i (mem_allInstrs i)

/-- The word of a command breaks no clause of R94. -/
theorem commandWordWf_encode (i : Instr) : commandWordWf (encode i) = true :=
  (by decide : ∀ i ∈ allInstrs, commandWordWf (encode i) = true) i (mem_allInstrs i)

theorem map_encode_allInstrs : allInstrs.map encode =
    [0x00#32, 0x01#32, 0x11#32, 0x21#32, 0x31#32, 0x02#32, 0x03#32, 0x43#32, 0x04#32, 0x44#32, 0x05#32, 0x45#32] := by
  decide

/-- The words of the commands, each written out. -/
theorem exists_eq_encode_iff_mem (w : Word) : (∃ i, w = encode i) ↔
    w ∈ [0x00#32, 0x01#32, 0x11#32, 0x21#32, 0x31#32, 0x02#32, 0x03#32, 0x43#32, 0x04#32, 0x44#32, 0x05#32, 0x45#32] := by
  rw [← map_encode_allInstrs, List.mem_map]
  exact ⟨fun ⟨i, h⟩ => ⟨i, mem_allInstrs i, h.symm⟩, fun ⟨i, _, h⟩ => ⟨i, h.symm⟩⟩

/-! ### What decoding gives (R94, R98) -/

/-- The clause of R94 behind a rejection: the check that the word fails. -/
def IllegalWord.clause : IllegalWord → Word → Bool
  | .reservedBits => reservedBitsZero
  | .reservedOpcode => opcodeAssigned
  | .typeOutsideGen => typeOnlyForGen
  | .zaOutsideEcc => zaOnlyForEcc

/-! The named checks of R94, on the fields that `decode` looks at. -/

theorem reservedBitsZero_eq (w : Word) : reservedBitsZero w = (fieldRsvd w == 0#25) := rfl

theorem opcodeAssigned_eq (w : Word) : opcodeAssigned w = decide ((fieldOp w).toNat < 6) := rfl

theorem typeOnlyForGen_eq (w : Word) : typeOnlyForGen w = (fieldType w == 0#2 || fieldOp w == 1#4) := rfl

theorem zaOnlyForEcc_eq (w : Word) :
    zaOnlyForEcc w = (!fieldZa w || (3 ≤ (fieldOp w).toNat && (fieldOp w).toNat ≤ 5)) := rfl

/-- A broken clause makes the word illegal (R94). -/
theorem commandWordWf_eq_false {why : IllegalWord} {w : Word} (h : why.clause w = false) : commandWordWf w = false := by
  cases why <;> simp_all [IllegalWord.clause, commandWordWf]

/-- The decoding `d` fits the word: the word is the command's encoding, or it breaks the clause that the rejection names. -/
def Decoded.Describes : Decoded → Word → Prop
  | .command i, w => w = encode i
  | .illegal why, w => why.clause w = false

/-- The check of TYPE rejects for a broken clause only, outside GEN. -/
theorem requireTypeZero_describes {w : Word} {d : Decoded} (hop : (fieldOp w).toNat ≠ 1)
    (hd : fieldType w = 0#2 → d.Describes w) : (requireTypeZero w d).Describes w := by
  unfold requireTypeZero
  split
  · exact hd (by assumption)
  · rename_i hty
    have hgen : fieldOp w ≠ 1#4 := fun h => hop (congrArg BitVec.toNat h)
    simp [Decoded.Describes, IllegalWord.clause, typeOnlyForGen_eq, hty, hgen]

/-- The check of ZA rejects for a broken clause only, outside the ECC commands. -/
theorem requireZaZero_describes {w : Word} {d : Decoded} (hop : (fieldOp w).toNat < 3)
    (hd : fieldZa w = false → d.Describes w) : (requireZaZero w d).Describes w := by
  unfold requireZaZero
  split
  · rename_i hza
    have hlow : ¬ 3 ≤ (fieldOp w).toNat := by omega
    simp [Decoded.Describes, IllegalWord.clause, zaOnlyForEcc_eq, hza, hlow]
  · exact hd (by simp_all)

/-- A word with RSVD = 0 whose opcode is given as a number, as `decode` looks at it. -/
theorem eq_assemble_of_fields {w : Word} {op : Nat} {ty : BitVec 2} {za : Bool} (hr : fieldRsvd w = 0#25)
    (ho : (fieldOp w).toNat = op) (ht : fieldType w = ty) (hz : fieldZa w = za) :
    w = assemble (BitVec.ofNat 4 op) ty za := by
  rw [← ho, ← ht, ← hz, BitVec.ofNat_toNat, BitVec.setWidth_eq]
  exact eq_assemble_of_rsvd hr

theorem encode_genOfType (ty : BitVec 2) : encode (genOfType ty) = assemble 1#4 ty false := by
  revert ty
  decide

/-- All that decoding can give, row by row of R98: NOP, GEN, EDC and the three ECC commands, then the reserved opcodes. -/
theorem decode_describes (w : Word) : (decode w).Describes w := by
  unfold decode
  split
  · next hr =>
    split
    · next ho =>
      exact requireTypeZero_describes (by omega) fun ht =>
        requireZaZero_describes (by omega) fun hz => eq_assemble_of_fields hr ho ht hz
    · next ho =>
      exact requireZaZero_describes (by omega) fun hz =>
        (eq_assemble_of_fields hr ho rfl hz).trans (encode_genOfType _).symm
    · next ho =>
      exact requireTypeZero_describes (by omega) fun ht =>
        requireZaZero_describes (by omega) fun hz => eq_assemble_of_fields hr ho ht hz
    · next ho =>
      exact requireTypeZero_describes (by omega) fun ht => eq_assemble_of_fields hr ho ht rfl
    · next ho =>
      exact requireTypeZero_describes (by omega) fun ht => eq_assemble_of_fields hr ho ht rfl
    · next ho =>
      exact requireTypeZero_describes (by omega) fun ht => eq_assemble_of_fields hr ho ht rfl
    · simp only [imp_false] at *
      have h6 : ¬ (fieldOp w).toNat < 6 := by omega
      simp only [Decoded.Describes, IllegalWord.clause, opcodeAssigned_eq, h6, decide_false]
  · next hr =>
    simpa [Decoded.Describes, IllegalWord.clause, reservedBitsZero_eq] using hr

/-- Settles O2: decoding describes the word, and the word of a command decodes to it. -/
theorem decodeAndEncodeAreInverse : Obligations.DecodeAndEncodeAreInverse := by
  refine fun w i => ⟨fun h => ?_, fun h => h ▸ decode_encode i⟩
  have hd := decode_describes w
  rwa [h] at hd

theorem exists_decode_command_iff (w : Word) : (∃ i, decode w = .command i) ↔ ∃ i, w = encode i :=
  exists_congr (decodeAndEncodeAreInverse w)

/-- A word is rejected if and only if it breaks some clause of R94. -/
theorem exists_decode_illegal_iff (w : Word) : (∃ why, decode w = .illegal why) ↔ commandWordWf w = false := by
  have hd := decode_describes w
  cases h : decode w with
  | command i =>
    rw [h] at hd
    simp [show w = encode i from hd, commandWordWf_encode]
  | illegal why =>
    rw [h] at hd
    simpa using commandWordWf_eq_false hd

/-- Settles O4: the named checks, written out on the bit fields. -/
theorem illegalExactlyByTheFourClauses : Obligations.IllegalExactlyByTheFourClauses := by
  intro w
  rw [exists_decode_illegal_iff]
  simp only [commandWordWf, reservedBitsZero, opcodeAssigned, typeOnlyForGen, zaOnlyForEcc, Bool.and_eq_false_iff,
    Bool.or_eq_false_iff, beq_eq_false_iff_ne, decide_eq_false_iff_not, Bool.not_eq_false', not_lt, not_le, or_assoc]

/-! ### The rows of the table (R93) -/

theorem fieldRsvd_and (w m : Word) : fieldRsvd (w &&& m) = fieldRsvd w &&& fieldRsvd m := BitVec.extractLsb'_and

theorem fieldOp_and (w m : Word) : fieldOp (w &&& m) = fieldOp w &&& fieldOp m := BitVec.extractLsb'_and

theorem fieldType_and (w m : Word) : fieldType (w &&& m) = fieldType w &&& fieldType m := BitVec.extractLsb'_and

theorem fieldZa_and (w m : Word) : fieldZa (w &&& m) = (fieldZa w && fieldZa m) := BitVec.getLsbD_and

/-- Every row asks for RSVD = 0, one opcode and one TYPE, and leaves at most ZA open. -/
theorem opcodeTable_fields : ∀ r ∈ opcodeTable,
    fieldRsvd r.mask = BitVec.allOnes 25 ∧ fieldOp r.mask = BitVec.allOnes 4 ∧ fieldType r.mask = BitVec.allOnes 2 ∧
      fieldRsvd r.pattern = 0#25 := by
  decide

/-- The words that a row accepts have its opcode and its TYPE, and its ZA where the row asks for it. -/
theorem fields_of_row {r : OpcodeRow} (hr : r ∈ opcodeTable) {w : Word} (h : w &&& r.mask = r.pattern) :
    fieldRsvd w = 0#25 ∧ fieldOp w = fieldOp r.pattern ∧ fieldType w = fieldType r.pattern ∧
      (fieldZa w && fieldZa r.mask) = fieldZa r.pattern := by
  obtain ⟨hmr, hmo, hmt, hpr⟩ := opcodeTable_fields r hr
  rw [← hpr, ← h]
  simp only [fieldRsvd_and, fieldOp_and, fieldType_and, fieldZa_and, hmr, hmo, hmt, BitVec.and_allOnes, and_self]

/-- The rows accept exactly the words of commands. -/
theorem exists_row_iff (w : Word) : (∃ r ∈ opcodeTable, w &&& r.mask = r.pattern) ↔ ∃ i, w = encode i := by
  constructor
  · rintro ⟨r, hr, h⟩
    have hopen : ∀ r ∈ opcodeTable, ∀ za : Bool, (za && fieldZa r.mask) = fieldZa r.pattern →
        ∃ i ∈ allInstrs, assemble (fieldOp r.pattern) (fieldType r.pattern) za = encode i := by decide
    obtain ⟨hrsvd, ho, ht, hz⟩ := fields_of_row hr h
    obtain ⟨i, -, hi⟩ := hopen r hr _ hz
    exact ⟨i, by rw [eq_assemble_of_rsvd hrsvd, ho, ht, hi]⟩
  · rintro ⟨i, rfl⟩
    exact (by decide : ∀ i ∈ allInstrs, ∃ r ∈ opcodeTable, encode i &&& r.mask = r.pattern) i (mem_allInstrs i)

/-- Opcode and TYPE tell the rows apart. -/
theorem row_unique {r r' : OpcodeRow} (hr : r ∈ opcodeTable) (hr' : r' ∈ opcodeTable)
    (ho : fieldOp r.pattern = fieldOp r'.pattern) (ht : fieldType r.pattern = fieldType r'.pattern) : r = r' :=
  List.inj_on_of_nodup_map (f := fun r : OpcodeRow => (fieldOp r.pattern, fieldType r.pattern))
    (by decide : (opcodeTable.map _).Nodup) hr hr' (Prod.ext ho ht)

/-- Settles O3: the rows accept the words of the commands, and their opcodes and TYPEs differ. -/
theorem legalIffExactlyOneTableRowMatches : Obligations.LegalIffExactlyOneTableRowMatches := by
  refine ⟨fun w => (exists_decode_command_iff w).trans (exists_row_iff w).symm, fun w r hr r' hr' h h' => ?_,
    fun w => (exists_decode_command_iff w).trans (exists_eq_encode_iff_mem w)⟩
  obtain ⟨-, ho, ht, -⟩ := fields_of_row hr h
  obtain ⟨-, ho', ht', -⟩ := fields_of_row hr' h'
  exact row_unique hr hr' (ho.symm.trans ho') (ht.symm.trans ht')

/-- Settles O1: the decoder computes each of the fourteen. -/
theorem sampleWordsDecode : Obligations.SampleWordsDecode := by
  unfold Obligations.SampleWordsDecode
  decide

end Sys2Proof

namespace Sys2Proof.Machine

/-! ### The host's sync (R97) -/

/-- The sync pattern (R97). -/
def syncPattern : List Byte := 0x00#8 :: List.replicate 10 0xFF#8 ++ [0x00#8]

/-- The three words of sync, stored one after the other, are the twelve bytes of the pattern. -/
theorem Memory.storeLE32_sync (m : Memory) :
    ((m.storeLE32 0 0xFFFFFF00#32).storeLE32 4 0xFFFFFFFF#32).storeLE32 8 0x00FFFFFF#32 = m.writeBytes 0 syncPattern := rfl

/-- What a 4-byte write to the sector window leaves for the step after it (R64). -/
theorem next_writeSectorWord {s t : State} {off : Offset} {v : Word} {rest : List HostEvent} (hs : s.seq = .idle)
    (hp : s.port = wr32 off v :: rest) (hal : off.toNat % 4 = 0) (ho : off.toNat < 0x930) (ht : step s = .next t) :
    t.seq = .idle ∧ t.port = rest ∧ t.sector = s.sector.storeLE32 off.toNat v := by
  rw [Host.Outcome.next.inj (ht.symm.trans (step_writeSectorWord hs hp hal ho))]
  exact ⟨hs, rfl, rfl⟩

/-- Settles O50: each step performs one write, and together they write the pattern. -/
theorem syncWritesTheSyncPattern : Obligations.SyncWritesTheSyncPattern := by
  intro s t u v rest hs hwf hp ht hu hv
  obtain ⟨hts, htp, htm⟩ := next_writeSectorWord hs hp (by decide) (by decide) ht
  obtain ⟨hus, hup, hum⟩ := next_writeSectorWord hts htp (by decide) (by decide) hu
  obtain ⟨-, -, hvm⟩ := next_writeSectorWord hus hup (by decide) (by decide) hv
  have hpat : v.sector = s.sector.writeBytes 0 syncPattern := by
    rw [hvm, hum, htm]
    exact s.sector.storeLE32_sync
  have hread : ∀ a, v.sector.read a = if a < 12 then syncPattern.getD a unwrittenByte else s.sector.read a := fun a => by
    rw [hpat, Memory.read_writeBytes hwf 0 syncPattern (by decide) a]
    simp [syncPattern]
  have hones : ∀ a < 0x00B, 0x001 ≤ a → syncPattern.getD a unwrittenByte = 0xFF#8 := by decide
  refine ⟨(hread _).trans rfl, fun a hlo hhi => ?_, (hread _).trans rfl, fun a ha => ?_⟩
  · rw [hread, if_pos (by omega), hones a (by omega) hlo]
  · rw [hread, if_neg (by omega)]

end Sys2Proof.Machine

/-! # Proofs: the EDC unit (spec/40_edc.md)

One byte's step is shown to be eight bit steps; with the linearity of `Laws/Edc.lean` that gives the algebra of R113. What
EDC and GEN leave in the buffer follows from the frame of `edcStore` and from the residue of a region and its EDC. -/

namespace Sys2Proof.Machine

/-! ### One byte's step (R33, R111) -/

/-- While only zeros leave the register, the bit steps of R33 are a shift. -/
theorem repeat_crcBit_of_low_zero {v : Word} (n : Nat) (h : ∀ i, i < n → v.getLsbD i = false) :
    Nat.repeat crcBit n v = v >>> n := by
  induction n with
  | zero => rfl
  | succ n ih =>
    have hbit : (v >>> n).getLsbD 0 = false := by
      rw [BitVec.getLsbD_ushiftRight]
      exact h n (Nat.lt_succ_self n)
    rw [Nat.repeat, ih (fun i hi => h i (Nat.lt_succ_of_lt hi)), crcBit, hbit, if_neg Bool.false_ne_true, BitVec.xor_zero,
      BitVec.shiftRight_add]

/-- Eight bit steps shift the upper bytes down and add the table entry of the lowest one. -/
theorem repeat_crcBit_eight (v : Word) : Nat.repeat crcBit 8 v = v >>> 8 ^^^ edcLut (v.extractLsb' 0 8) := by
  have hsplit : v = (v >>> 8) <<< 8 ^^^ (v.extractLsb' 0 8).setWidth 32 := by
    refine BitVec.eq_of_getLsbD_eq (fun i hi => ?_)
    by_cases h8 : i < 8
    · simp [hi, h8]
    · simp [hi, h8, show 8 + (i - 8) = i by omega]
  have hlow : ∀ i, i < 8 → ((v >>> 8) <<< 8).getLsbD i = false := fun i hi => by simp [hi]
  have hshift : ((v >>> 8) <<< 8) >>> 8 = v >>> 8 := by
    refine BitVec.eq_of_getLsbD_eq (fun i _ => ?_)
    by_cases h24 : 8 + i < 32
    · simp [h24]
    · simp [h24, BitVec.getLsbD_of_ge v (8 + i) (by omega)]
  calc Nat.repeat crcBit 8 v
      = Nat.repeat crcBit 8 ((v >>> 8) <<< 8) ^^^ edcLut (v.extractLsb' 0 8) := by
        rw [edcLut, ← repeat_crcBit_xor, ← hsplit]
    _ = v >>> 8 ^^^ edcLut (v.extractLsb' 0 8) := by rw [repeat_crcBit_of_low_zero 8 hlow, hshift]

/-- A byte lies below the bits that the step keeps. -/
theorem byte_setWidth_ushiftRight (b : Byte) : b.setWidth 32 >>> 8 = 0#32 := by
  refine BitVec.eq_of_getLsbD_eq (fun i _ => ?_)
  simp

/-- The table form of one byte's step is the bit-serial one. -/
theorem edcStep_eq_repeat_crcBit (e : Word) (b : Byte) : edcStep e b = Nat.repeat crcBit 8 (e ^^^ b.setWidth 32) := by
  rw [repeat_crcBit_eight, BitVec.ushiftRight_xor_distrib, byte_setWidth_ushiftRight, BitVec.xor_zero, edcStep]

/-- From an accumulator of 0 one byte gives its table entry. -/
theorem edcStep_zero_left (b : Byte) : edcStep 0#32 b = edcLut b := by
  rw [edcStep_eq_repeat_crcBit, BitVec.zero_xor, edcLut]

/-- The lowest byte of the accumulator cancels itself. -/
theorem edcStep_low_byte (e : Word) : edcStep e (e.extractLsb' 0 8) = e >>> 8 := by
  have hlow : (e ^^^ (e.extractLsb' 0 8).setWidth 32).extractLsb' 0 8 = 0#8 := by
    refine BitVec.eq_of_getLsbD_eq (fun i hi => ?_)
    simp [hi, show i < 32 by omega]
  rw [edcStep, hlow, edcLut_zero, BitVec.xor_zero]

/-! ### The EDC of a byte sequence (R113) -/

/-- Settles O21: both forms fold the same step. -/
theorem edcEqualsBitSerialCrc : Obligations.EdcEqualsBitSerialCrc := by
  intro bs
  have hstep : edcStep = fun e b => Nat.repeat crcBit 8 (e ^^^ b.setWidth 32) :=
    funext fun e => funext fun b => edcStep_eq_repeat_crcBit e b
  rw [edcOfBytes, hstep]
  rfl

theorem edcOfBytes_of_allZero {bs : List Byte} (h : allZeroBytes bs) : edcOfBytes bs = 0#32 := by
  induction bs with
  | nil => rfl
  | cons b rest ih =>
    obtain ⟨rfl, hrest⟩ := List.forall_mem_cons.1 h
    rw [edcOfBytes, List.foldl_cons, edcStep_zero]
    exact ih hrest

/-- Settles O22: a zero byte keeps an accumulator of 0, and one byte is one step from it. -/
theorem edcOfZerosAndOfOneByte : Obligations.EdcOfZerosAndOfOneByte :=
  ⟨fun _ h => edcOfBytes_of_allZero h, edcStep_zero_left⟩

/-- The loop of R111 is linear in its accumulator and its bytes together. -/
theorem foldl_edcStep_xor {xs ys : List Byte} (h : xs.length = ys.length) (e f : Word) :
    (List.zipWith (· ^^^ ·) xs ys).foldl edcStep (e ^^^ f) = xs.foldl edcStep e ^^^ ys.foldl edcStep f := by
  induction xs generalizing ys e f with
  | nil =>
    obtain rfl := List.length_eq_zero_iff.1 h.symm
    rfl
  | cons x xs ih =>
    cases ys with
    | nil => simp at h
    | cons y ys =>
      rw [List.zipWith_cons_cons, List.foldl_cons, edcStep_xor]
      exact ih (Nat.succ.inj h) (edcStep e x) (edcStep f y)

/-- Settles O23: the loop started from 0, which is 0 XOR 0. -/
theorem edcIsLinear : Obligations.EdcIsLinear := fun _ _ h => foldl_edcStep_xor h 0#32 0#32

/-- An accumulator followed by its own four bytes is shifted out. -/
theorem foldl_edcStep_leBytes (v : Word) : (leBytes v).foldl edcStep v = 0#32 := by
  have hstep : ∀ k, edcStep (v >>> k) (v.extractLsb' k 8) = v >>> (k + 8) := fun k => by
    have hbyte : v.extractLsb' k 8 = (v >>> k).extractLsb' 0 8 :=
      BitVec.eq_of_getLsbD_eq (fun i hi => by simp [hi])
    rw [hbyte, edcStep_low_byte, BitVec.shiftRight_add]
  have hfirst : edcStep v (v.extractLsb' 0 8) = v >>> 8 := edcStep_low_byte v
  simp only [leBytes, List.foldl_cons, List.foldl_nil, hfirst, hstep, Nat.reduceAdd]
  exact BitVec.ushiftRight_eq_zero (Nat.le_refl 32)

/-- Settles O24: the EDC is the accumulator that its own bytes meet. -/
theorem edcResidueIsZero : Obligations.EdcResidueIsZero := fun bs => by
  rw [edcOfBytes_append, foldl_edcStep_leBytes]

/-! ### The EDC command (R112, R114) -/

/-- Running an accepted command completes it. -/
theorem State.completesAs_runCommand (i : Instr) (s : State) : s.completesAs (s.runCommand i (commandBody i)) := by
  obtain ⟨-, -, hcmd, hsrc, hlen, hdst, hseq, hst, -⟩ := s.runCommand_spec i
  exact ⟨hst, hseq, hcmd, hsrc, hlen, hdst⟩

/-- With its operands in range EDC runs. -/
theorem exec_edc_of_operandsOk {s : State} (h : s.edcOperandsOk) :
    exec .edc s = .next (s.runCommand .edc (commandBody .edc)) := by
  rcases exec_cases .edc s with ⟨⟨-, hr⟩, -⟩ | ⟨-, he⟩
  · exact absurd (s.edcOperandsOk_iff_inRange.1 h) (by simp [hr])
  · exact he

/-- Settles O20: the value is computed before the store, whose bytes lie in the buffer by the check of R182. -/
theorem edcStoresTheEdcOfTheOldRegion : Obligations.EdcStoresTheEdcOfTheOldRegion := by
  intro s hwf hok
  have hfit : s.edcDst.toNat + 4 ≤ Config.sectorSize := by
    obtain ⟨-, -, hdst⟩ := hok
    simp only [Config.sectorSize]
    omega
  obtain ⟨hsec, hval, -⟩ := s.runCommand_spec .edc
  refine ⟨_, exec_edc_of_operandsOk hok, s.completesAs_runCommand .edc, hval, fun k hk => ?_, fun a ha => ?_⟩
  · rw [hsec, hval]
    exact Memory.read_storeLE32 hwf hfit _ hk
  · rw [hsec]
    exact State.read_edcStore_outside hwf s.edcRegion ha

/-! ### The residue that GEN leaves (R115) -/

/-- A region that ends where its EDC is stored has EDC 0 together with it. -/
theorem edcCompute_edcStore_extended {s : State} (h : s.sector.wf) {r : EdcRegion} (hdst : r.dst = r.start + r.len)
    (hfit : r.dst + 4 ≤ Config.sectorSize) : edcCompute (s.edcStore r).sector r.start (r.len + 4) = 0#32 := by
  have hregion : (s.edcStore r).sector.readBytes r.start r.len = s.sector.readBytes r.start r.len :=
    Memory.readBytes_congr (fun a _ hhi => State.read_edcStore_outside h r (.inl (by omega)))
  have hstored : (s.edcStore r).sector.readBytes (r.start + r.len) 4 = leBytes (edcCompute s.sector r.start r.len) :=
    hdst ▸ Memory.readBytes_storeLE32 h hfit _
  rw [edcCompute, Memory.readBytes_append, hregion, hstored]
  exact edcResidueIsZero _

/-- GEN.T1 keeps the stored EDC: zero-pad and parity lie behind it. -/
theorem read_commandBody_genT1_of_lt {s : State} (h : s.sector.wf) {a : Nat} (ha : a < 0x814) :
    (commandBody .genT1 s).sector.read a = (s.edcStore ⟨0x000, 0x810, 0x810⟩).sector.read a := by
  have hedc := State.wf_edcStore h ⟨0x000, 0x810, 0x810⟩
  rw [commandBody_genT1_sector, Memory.read_withZeroAddress_eccPQ_outside (Memory.wf_writeBytes hedc _ _) false (by omega),
    Memory.read_writeBytes_outside hedc _ _ (.inl ha)]

/-- GEN.T2 keeps the stored EDC: the parity lies behind it, and the address bytes are restored. -/
theorem read_commandBody_genT2_of_lt {s : State} (h : s.sector.wf) {a : Nat} (ha : a < 0x81C) :
    (commandBody .genT2 s).sector.read a = (s.edcStore ⟨0x010, 0x808, 0x818⟩).sector.read a := by
  rw [commandBody_genT2_sector, Memory.read_withZeroAddress_eccPQ_outside (State.wf_edcStore h _) true (.inl ha)]

/-- Settles O17: what follows the EDC store leaves the extended region alone. -/
theorem genLeavesZeroResidue : Obligations.GenLeavesZeroResidue := by
  intro s t h
  refine ⟨fun he => ?_, fun he => ?_, fun he => ?_⟩
  · rw [(exec_gen (by simp) he).1,
      edcCompute_congr (fun a _ hhi => read_commandBody_genT1_of_lt h (show a < 0x814 by omega))]
    exact edcCompute_edcStore_extended h (r := ⟨0x000, 0x810, 0x810⟩) rfl (by decide)
  · rw [(exec_gen (by simp) he).1,
      edcCompute_congr (fun a _ hhi => read_commandBody_genT2_of_lt h (show a < 0x81C by omega))]
    exact edcCompute_edcStore_extended h (r := ⟨0x010, 0x808, 0x818⟩) rfl (by decide)
  · rw [(exec_gen (by simp) he).1, commandBody_genT3_sector]
    exact edcCompute_edcStore_extended h (r := ⟨0x010, 0x91C, 0x92C⟩) rfl (by decide)

/-! ### The memory frame of the commands (R114, R137 to R139, R161 to R165) -/

/-- Settles O37: the frame of every command's body, and a rejection stores nothing. -/
theorem commandsStoreOnlyToTheirDestination : Obligations.CommandsStoreOnlyToTheirDestination :=
  fun _ _ _ hwf he _ ha => read_exec_outside hwf he ha

end Sys2Proof.Machine

/-! # Proofs: the parity encoders (spec/41_ecc.md)

A pass is followed through the buffer that it sees: the zero-address option commutes with taking that buffer, so what
ECCP, ECCQ and ECCPQ leave follows from `Memory.read_eccBlock`. The algebra of a column rests on one fact: the two checks
of R132 have the two parity bytes as their only solution. -/

namespace Sys2Proof.Machine

/-! ### The read set of a column in closed form (R133, R134) -/

theorem EccParams.nextIndex_eq_mod {p : EccParams} (hinc : p.minorInc ≤ p.size) {index : Nat} (h : index < p.size) :
    p.nextIndex index = (index + p.minorInc) % p.size := by
  unfold EccParams.nextIndex
  split
  · rw [Nat.mod_eq_sub_mod (by omega), Nat.mod_eq_of_lt (by omega)]
  · rw [Nat.mod_eq_of_lt (by omega)]

theorem EccParams.indicesFrom_eq_map {p : EccParams} (hinc : p.minorInc ≤ p.size) (n : Nat) {index : Nat}
    (h : index < p.size) :
    p.indicesFrom index n = (List.range n).map (fun k => (index + p.minorInc * k) % p.size) := by
  induction n generalizing index with
  | zero => rfl
  | succ n ih =>
    have hnext : p.nextIndex index < p.size := by
      rw [EccParams.nextIndex_eq_mod hinc h]
      exact Nat.mod_lt _ (by omega)
    rw [EccParams.indicesFrom, ih hnext, EccParams.nextIndex_eq_mod hinc h, List.range_succ_eq_map, List.map_cons,
      List.map_map]
    congr 1
    · rw [Nat.mul_zero, Nat.add_zero, Nat.mod_eq_of_lt h]
    · refine List.map_congr_left (fun k _ => ?_)
      rw [Nat.mod_add_mod, Function.comp, Nat.mul_succ, Nat.add_assoc, Nat.add_comm p.minorInc]

/-- The indices of a column step by `minorInc` modulo `size` from its first one (R131). -/
theorem EccParams.Fits.columnIndices_eq_map {p : EccParams} (hp : p.Fits) {major : Nat} (h : major < p.majorCount) :
    p.columnIndices major =
      (List.range p.minorCount).map (fun k => (p.firstIndex major + p.minorInc * k) % p.size) :=
  EccParams.indicesFrom_eq_map hp.inc _ (hp.first major h)

theorem firstIndex_paramsP (m : Nat) : paramsP.firstIndex m = m := by
  simp only [EccParams.firstIndex, paramsP, Nat.shiftRight_eq_div_pow, Nat.and_one_is_mod]
  omega

/-- Settles O33: a P column never reaches `size`, so nothing is taken off; a Q column is the general closed form. -/
theorem columnIndicesInClosedForm : Obligations.ColumnIndicesInClosedForm := by
  refine ⟨fun m hm => ?_, fun m hm => paramsQ_fits.columnIndices_eq_map hm⟩
  rw [paramsP_fits.columnIndices_eq_map hm]
  refine List.map_congr_left (fun k hk => ?_)
  have hk : k < 24 := List.mem_range.1 hk
  rw [firstIndex_paramsP]
  exact Nat.mod_eq_of_lt (show m + 86 * k < 2064 by omega)

/-! ### Every source byte is read once (R133, R134) -/

/-- Columns that reach every source index read each exactly once, for they read `size` indices in all. -/
theorem EccParams.perm_flatMap_columnIndices {p : EccParams}
    (h : ∀ i, i < p.size → ∃ major, major < p.majorCount ∧ i ∈ p.columnIndices major) :
    ((List.range p.majorCount).flatMap p.columnIndices).Perm (List.range p.size) := by
  have hsub : List.range p.size ⊆ (List.range p.majorCount).flatMap p.columnIndices := fun i hi => by
    obtain ⟨major, hmaj, hmem⟩ := h i (List.mem_range.1 hi)
    exact List.mem_flatMap.2 ⟨major, List.mem_range.2 hmaj, hmem⟩
  have hlen : ((List.range p.majorCount).flatMap p.columnIndices).length = p.size := by
    simp [List.length_flatMap, EccParams.columnIndices, EccParams.size]
  exact ((List.subperm_of_subset List.nodup_range hsub).perm_of_length_le (by simp [hlen])).symm

/-- Index `i` of P stands in column `i mod 86`. -/
theorem exists_columnP {i : Nat} (h : i < 2064) : ∃ major, major < 86 ∧ i ∈ paramsP.columnIndices major := by
  refine ⟨i % 86, by omega, ?_⟩
  rw [columnIndicesInClosedForm.1 _ (by omega)]
  exact List.mem_map.2 ⟨i / 86, List.mem_range.2 (by omega), by omega⟩

/-- Index `86·q + 2·k + b` of Q, with `k` below 43 and `b` 0 or 1, is number `k` of the column of parity `b` that starts
`k` columns of its parity before `q`, counted modulo 26. -/
theorem exists_columnQ {i : Nat} (h : i < 2236) : ∃ major, major < 52 ∧ i ∈ paramsQ.columnIndices major := by
  obtain ⟨q, k, b, rfl, hq, hk, hb⟩ : ∃ q k b, i = 86 * q + 2 * k + b ∧ q < 26 ∧ k < 43 ∧ b < 2 :=
    ⟨i / 86, i % 86 / 2, i % 2, by omega, by omega, by omega, by omega⟩
  have hlt : 2 * ((q + 52 - k) % 26) + b < 52 := by omega
  refine ⟨_, hlt, ?_⟩
  rw [columnIndicesInClosedForm.2 _ hlt]
  refine List.mem_map.2 ⟨k, List.mem_range.2 hk, ?_⟩
  rw [Nat.shiftRight_eq_div_pow, Nat.and_one_is_mod]
  omega

/-- Settles O34: each index is in some column, and there are as many reads as indices. -/
theorem eachPassReadsEverySourceByteOnce : Obligations.EachPassReadsEverySourceByteOnce := by
  refine ⟨?_, ?_⟩ <;> rw [List.range'_eq_map_range]
  · exact (EccParams.perm_flatMap_columnIndices (p := paramsP) (fun _ => exists_columnP)).map _
  · exact (EccParams.perm_flatMap_columnIndices (p := paramsQ) (fun _ => exists_columnQ)).map _

/-! ### The accumulators and the two checks (R132, R142) -/

theorem mulAlphaPow_xor (n : Nat) (x y : Byte) : mulAlphaPow n (x ^^^ y) = mulAlphaPow n x ^^^ mulAlphaPow n y := by
  induction n with
  | zero => rfl
  | succ n ih =>
    simp only [mulAlphaPow, Nat.repeat] at ih ⊢
    rw [ih, eccF_xor]

theorem mulAlphaPow_eccF (n : Nat) (x : Byte) : mulAlphaPow n (eccF x) = mulAlphaPow (n + 1) x := by
  induction n with
  | zero => rfl
  | succ n ih => exact congrArg eccF ih

theorem mulAlphaPow_zero_right (n : Nat) : mulAlphaPow n 0#8 = 0#8 := by
  induction n with
  | zero => rfl
  | succ n ih => exact (congrArg eccF ih).trans eccF_zero

theorem gfSum_cons (b : Byte) (bs : List Byte) : gfSum (b :: bs) = b ^^^ gfSum bs := by
  rw [gfSum, gfSum, ← List.foldl_assoc (op := fun x y : Byte => x ^^^ y), List.foldl_cons, BitVec.zero_xor, BitVec.xor_zero]

/-- `eccB` sums the bytes that the loop takes. -/
theorem foldl_eccAdd_b (ts : List Byte) (acc : EccAcc) : (ts.foldl eccAdd acc).b = acc.b ^^^ gfSum ts := by
  induction ts generalizing acc with
  | nil => exact BitVec.xor_zero.symm
  | cons t ts ih => rw [List.foldl_cons, ih, gfSum_cons, eccAdd, BitVec.xor_assoc]

/-- `eccA`, multiplied by α `d` more times, is the sum of the bytes weighted with the multiplications each has met. -/
theorem mulAlphaPow_foldl_eccAdd_a (d : Nat) (ts : List Byte) (acc : EccAcc) :
    mulAlphaPow d (ts.foldl eccAdd acc).a =
      mulAlphaPow (ts.length + d) acc.a ^^^ gfSum (ts.mapIdx fun k t => mulAlphaPow (ts.length + d - k) t) := by
  induction ts generalizing acc with
  | nil => simp [gfSum]
  | cons t ts ih =>
    rw [List.foldl_cons, ih, eccAdd, mulAlphaPow_eccF, mulAlphaPow_xor, List.mapIdx_cons, gfSum_cons]
    simp only [List.length_cons, Nat.add_sub_add_right, Nat.sub_zero, Nat.add_right_comm ts.length 1 d, BitVec.xor_assoc]

theorem mulAlphaPow_eccAccumulate_a (d : Nat) (ts : List Byte) :
    mulAlphaPow d (eccAccumulate ts).a = gfSum (ts.mapIdx fun k t => mulAlphaPow (ts.length + d - k) t) := by
  rw [eccAccumulate, mulAlphaPow_foldl_eccAdd_a, mulAlphaPow_zero_right, BitVec.zero_xor]

theorem eccAccumulate_b (ts : List Byte) : (eccAccumulate ts).b = gfSum ts := by
  rw [eccAccumulate, foldl_eccAdd_b, BitVec.zero_xor]

theorem xor_eq_xor_swap (x y z w : Byte) : x ^^^ y = z ^^^ w ↔ z ^^^ y = x ^^^ w := by
  rw [← BitVec.xor_eq_zero_iff, xor_xor_xor_comm, BitVec.xor_comm x z, xor_xor_xor_comm, BitVec.xor_eq_zero_iff]

/-- The checks of R132 in terms of the accumulators. -/
theorem parityChecks_iff_accumulators (ts : List Byte) (p0 p1 : Byte) :
    parityChecks ts p0 p1 ↔
      p1 = p0 ^^^ (eccAccumulate ts).b ∧ p0 ^^^ eccF p0 = eccF (eccAccumulate ts).a ^^^ (eccAccumulate ts).b := by
  have ha : gfSum (ts.mapIdx fun k t => mulAlphaPow (ts.length + 1 - k) t) = eccF (eccAccumulate ts).a :=
    (mulAlphaPow_eccAccumulate_a 1 ts).symm
  have hp : mulAlphaPow 1 p0 = eccF p0 := rfl
  rw [parityChecks, ha, hp, ← eccAccumulate_b, BitVec.xor_eq_zero_iff, BitVec.xor_eq_zero_iff, BitVec.xor_comm _ p0,
    eq_comm]
  exact and_congr_right (fun h => by rw [h, xor_eq_xor_swap])

/-- The two parity bytes solve the checks, and nothing else does: the division by α+1 has one result (R142). -/
theorem parityChecks_iff (ts : List Byte) (p0 p1 : Byte) :
    parityChecks ts p0 p1 ↔ p0 = parity0 ts ∧ p1 = parity1 ts := by
  have hdiv : ∀ y : Byte, p0 ^^^ eccF p0 = y ↔ p0 = eccB y := fun y =>
    ⟨fun h => by rw [← h, eccB_xor_eccF], fun h => by rw [h, eccB_divides]⟩
  rw [parityChecks_iff_accumulators, hdiv, and_comm]
  exact and_congr_right (fun h => by rw [parity1, h, parity0])

/-- Settles O31: one direction of the equivalence above. -/
theorem parityBytesAreTheUniqueSolution : Obligations.ParityBytesAreTheUniqueSolution :=
  fun ts p0 p1 => (parityChecks_iff ts p0 p1).1

/-! ### Linearity of the parity bytes (R141) -/

/-- `ECC_B` is linear over exclusive-or, as the inverse of a linear map. -/
theorem eccB_xor (x y : Byte) : eccB (x ^^^ y) = eccB x ^^^ eccB y := by
  obtain ⟨i, rfl⟩ := exists_xor_eccF x
  obtain ⟨j, rfl⟩ := exists_xor_eccF y
  rw [xor_xor_xor_comm, ← eccF_xor, eccB_xor_eccF, eccB_xor_eccF, eccB_xor_eccF]

theorem foldl_eccAdd_map_xor {ι : Type} (js : List ι) (f g : ι → Byte) (a a' b b' : Byte) :
    (js.map fun j => f j ^^^ g j).foldl eccAdd ⟨a ^^^ a', b ^^^ b'⟩ =
      ⟨((js.map f).foldl eccAdd ⟨a, b⟩).a ^^^ ((js.map g).foldl eccAdd ⟨a', b'⟩).a,
        ((js.map f).foldl eccAdd ⟨a, b⟩).b ^^^ ((js.map g).foldl eccAdd ⟨a', b'⟩).b⟩ := by
  induction js generalizing a a' b b' with
  | nil => rfl
  | cons j js ih =>
    simp only [List.map_cons, List.foldl_cons, eccAdd, xor_xor_xor_comm _ _ (f j) (g j), eccF_xor]
    exact ih _ _ _ _

/-- The accumulators of the exclusive-or of two columns are the exclusive-ors of theirs. -/
theorem eccAccumulate_map_xor {ι : Type} (js : List ι) (f g : ι → Byte) :
    eccAccumulate (js.map fun j => f j ^^^ g j) =
      ⟨(eccAccumulate (js.map f)).a ^^^ (eccAccumulate (js.map g)).a,
        (eccAccumulate (js.map f)).b ^^^ (eccAccumulate (js.map g)).b⟩ :=
  foldl_eccAdd_map_xor js f g 0#8 0#8 0#8 0#8

theorem parity0_map_xor {ι : Type} (js : List ι) (f g : ι → Byte) :
    parity0 (js.map fun j => f j ^^^ g j) = parity0 (js.map f) ^^^ parity0 (js.map g) := by
  rw [parity0, eccAccumulate_map_xor, eccF_xor, xor_xor_xor_comm, eccB_xor, parity0, parity0]

theorem parity1_map_xor {ι : Type} (js : List ι) (f g : ι → Byte) :
    parity1 (js.map fun j => f j ^^^ g j) = parity1 (js.map f) ^^^ parity1 (js.map g) := by
  rw [parity1, parity0_map_xor, eccAccumulate_map_xor, xor_xor_xor_comm, parity1, parity1]

theorem fits_of_eq {p : EccParams} (hp : p = paramsP ∨ p = paramsQ) : p.Fits := by
  rcases hp with rfl | rfl
  · exact paramsP_fits
  · exact paramsQ_fits

/-- Settles O32: the columns of the exclusive-or are the exclusive-ors of the columns, and both parity bytes are linear. -/
theorem parityIsLinear : Obligations.ParityIsLinear := by
  intro p m m' m'' hp ⟨hm, hm', hm'', hxor⟩ a hlo hhi
  have hfits := fits_of_eq hp
  rw [Memory.read_eccBlock hm hfits, Memory.read_eccBlock hm' hfits, Memory.read_eccBlock hm'' hfits]
  simp only [Memory.eccColumn, hxor]
  by_cases h0 : p.dst ≤ a ∧ a < p.dst + p.majorCount
  · simp only [if_pos h0, parity0_map_xor]
  · have h1 : p.dst + p.majorCount ≤ a ∧ a < p.dst + p.majorCount + p.majorCount := by omega
    simp only [if_neg h0, if_pos h1, parity1_map_xor]

/-! ### The parity that a pass leaves (R131, R132) -/

/-- A pass leaves the parity of the buffer it began with. -/
theorem parityOf_eccBlock {m : Memory} (h : m.wf) {p : EccParams} (hp : p.Fits) : parityOf p m (m.eccBlock p) := by
  intro major hmaj
  rw [Memory.read_eccBlock h hp, if_pos (by omega), Memory.read_eccBlock h hp, if_neg (by omega), if_pos (by omega),
    Nat.add_sub_cancel_left, Nat.add_sub_cancel_left]
  exact ⟨rfl, rfl⟩

/-- Settles O30: the loop's sums are those of any list of bytes, and a pass leaves the solution of the checks. -/
theorem parityBytesSatisfyTheChecks : Obligations.ParityBytesSatisfyTheChecks := by
  refine ⟨fun ts => ⟨mulAlphaPow_eccAccumulate_a 0 ts, eccAccumulate_b ts⟩, fun p m hp hm major hmaj => ?_⟩
  obtain ⟨h0, h1⟩ := parityOf_eccBlock hm (fits_of_eq hp) major hmaj
  rw [Nat.add_right_comm, h0, h1]
  exact (parityChecks_iff _ _ _).2 ⟨rfl, rfl⟩

/-- Parity is a statement about the source bytes of the one buffer and the destination bytes of the other. -/
theorem parityOf_congr {p : EccParams} (hp : p.Fits) {src src' out out' : Memory}
    (hsrc : ∀ a, eccSrc ≤ a → a < eccSrc + p.size → src.read a = src'.read a)
    (hout : ∀ a, p.dst ≤ a → a < p.dst + 2 * p.majorCount → out.read a = out'.read a) (h : parityOf p src out) :
    parityOf p src' out' := by
  intro major hmaj
  rw [← Memory.eccColumn_congr hp hmaj hsrc, ← hout _ (by omega) (by omega), ← hout _ (by omega) (by omega)]
  exact h major hmaj

/-- P followed by Q leaves both parities of the buffer as it ends: Q writes behind what P reads and writes (R139). -/
theorem parityOf_eccPQ {m : Memory} (h : m.wf) :
    parityOf paramsP m.eccPQ m.eccPQ ∧ parityOf paramsQ m.eccPQ m.eccPQ := by
  have hsrc : eccSrc = 0x00C := rfl
  have hP : paramsP.dst = 0x81C ∧ paramsP.majorCount = 86 ∧ paramsP.size = 2064 := ⟨rfl, rfl, rfl⟩
  have hQ : paramsQ.dst = 0x8C8 ∧ paramsQ.size = 2236 := ⟨rfl, rfl⟩
  have hwf := Memory.wf_eccBlock h paramsP_fits
  have hafterQ : ∀ a, a < 0x8C8 → (m.eccBlock paramsP).read a = m.eccPQ.read a := fun a ha =>
    (Memory.read_eccBlock_outside hwf paramsQ_fits (by omega)).symm
  refine ⟨parityOf_congr paramsP_fits (fun a _ hhi => ?_) (fun a _ hhi => hafterQ a (by omega))
      (parityOf_eccBlock h paramsP_fits),
    parityOf_congr paramsQ_fits (fun a _ hhi => hafterQ a (by omega)) (fun _ _ _ => rfl)
      (parityOf_eccBlock hwf paramsQ_fits)⟩
  exact (Memory.read_eccPQ_outside h (by omega)).symm

/-! ### The buffer that a pass sees (R136) -/

/-- The buffer that a pass with this ZA sees. -/
def Memory.seen (za : Bool) (m : Memory) : Memory := if za then m.writeBytes eccSrc [0#8, 0#8, 0#8, 0#8] else m

theorem Memory.wf_seen {m : Memory} (h : m.wf) (za : Bool) : (m.seen za).wf := by
  cases za with
  | false => exact h
  | true => exact Memory.wf_writeBytes h _ _

theorem Memory.read_seen {m : Memory} (h : m.wf) (za : Bool) (a : Nat) :
    (m.seen za).read a = if za = true ∧ 0x00C ≤ a ∧ a < 0x010 then 0x00#8 else m.read a := by
  cases za with
  | false => simp [Memory.seen]
  | true => simpa [Memory.seen] using Memory.read_zeroed h a

theorem Memory.read_seen_outside {m : Memory} (h : m.wf) (za : Bool) {a : Nat} (ha : a < 0x00C ∨ 0x010 ≤ a) :
    (m.seen za).read a = m.read a := by
  rw [Memory.read_seen h, if_neg (by omega)]

/-- There is one buffer that a pass sees. -/
theorem eq_seen_of_seenWith {za : Bool} {m m' : Memory} (h : m.wf) (hseen : seenWith za m m') : m' = m.seen za :=
  Memory.ext_read hseen.1 (Memory.wf_seen h za) (fun a => by rw [hseen.2, Memory.read_seen h])

/-- What the bodies under the zero-address option have in common: they keep the stored form and every byte below 0x81C. -/
structure KeepsBelowParity (body : Memory → Memory) : Prop where
  wf : ∀ m : Memory, m.wf → (body m).wf
  read : ∀ (m : Memory) (a : Nat), m.wf → a < 0x81C → (body m).read a = m.read a

theorem keepsBelowParity_eccBlock {p : EccParams} (hp : p.Fits) (hdst : 0x81C ≤ p.dst) :
    KeepsBelowParity (Memory.eccBlock p) where
  wf _ h := Memory.wf_eccBlock h hp
  read _ _ h ha := Memory.read_eccBlock_outside h hp (.inl (by omega))

theorem keepsBelowParity_eccPQ : KeepsBelowParity Memory.eccPQ where
  wf _ h := Memory.wf_eccPQ h
  read _ _ h ha := Memory.read_eccPQ_outside h (.inl ha)

section
variable {body : Memory → Memory} (hb : KeepsBelowParity body) {m : Memory} (h : m.wf) (za : Bool)
include hb h

/-- The address bytes end as they began. -/
theorem Memory.read_withZeroAddress_address {a : Nat} (ha : 0x00C ≤ a ∧ a < 0x010) :
    (m.withZeroAddress za body).read a = m.read a := by
  rw [Memory.read_withZeroAddress h za hb.wf, if_pos ha, hb.read m a h (by omega), ite_self]

/-- Every other byte is what the body makes of the buffer it sees. -/
theorem Memory.read_withZeroAddress_seen {a : Nat} (ha : a < 0x00C ∨ 0x010 ≤ a) :
    (m.withZeroAddress za body).read a = (body (m.seen za)).read a := by
  rw [Memory.read_withZeroAddress h za hb.wf, if_neg (show ¬ (0x00C ≤ a ∧ a < 0x010) by omega)]
  cases za <;> rfl

/-- The next pass sees what the body made of the buffer it saw: restoring the address bytes does not show. -/
theorem Memory.seen_withZeroAddress : (m.withZeroAddress za body).seen za = body (m.seen za) := by
  have hwf := Memory.wf_seen h za
  have hwf' := Memory.wf_withZeroAddress h za hb.wf
  refine Memory.ext_read (Memory.wf_seen hwf' za) (hb.wf _ hwf) (fun a => ?_)
  by_cases ha : 0x00C ≤ a ∧ a < 0x010
  · rw [hb.read _ a hwf (by omega), Memory.read_seen hwf', Memory.read_seen h,
      Memory.read_withZeroAddress_address hb h za ha]
  · rw [Memory.read_seen_outside hwf' za (by omega), Memory.read_withZeroAddress_seen hb h za (by omega)]

/-- The parity bytes lie behind the address bytes, so the option leaves the parity that the body leaves. -/
theorem parityOf_withZeroAddress {p : EccParams} (hp : p.Fits) (hdst : 0x81C ≤ p.dst) {src : Memory}
    (hpar : parityOf p src (body (m.seen za))) : parityOf p src (m.withZeroAddress za body) :=
  parityOf_congr hp (fun _ _ _ => rfl)
    (fun _ hlo _ => (Memory.read_withZeroAddress_seen hb h za (.inr (by omega))).symm) hpar

end

/-! ### The ECC commands (R136 to R139) -/

/-- `c` is an ECC command whose pass, or passes, are `body`. -/
structure EccCommand (c : Bool → Instr) (body : Memory → Memory) : Prop where
  ne_edc : ∀ za, c za ≠ .edc
  body_eq : ∀ za, commandBody (c za) = State.mapSector (Memory.withZeroAddress za body)
  keeps : KeepsBelowParity body

theorem eccCommand_eccp : EccCommand .eccp (Memory.eccBlock paramsP) :=
  ⟨nofun, fun _ => rfl, keepsBelowParity_eccBlock paramsP_fits (by decide)⟩

theorem eccCommand_eccq : EccCommand .eccq (Memory.eccBlock paramsQ) :=
  ⟨nofun, fun _ => rfl, keepsBelowParity_eccBlock paramsQ_fits (by decide)⟩

theorem eccCommand_eccpq : EccCommand .eccpq Memory.eccPQ :=
  ⟨nofun, fun _ => rfl, keepsBelowParity_eccPQ⟩

section
variable {c : Bool → Instr} {body : Memory → Memory} (hc : EccCommand c body)
include hc

/-- All that an ECC command does: it completes, with EDC_VALUE as it was and its passes made under the option. -/
theorem EccCommand.exec_next (za : Bool) (s : State) :
    ∃ t, exec (c za) s = .next t ∧ s.completesAs t ∧ t.edcValue = s.edcValue ∧
      t.sector = s.sector.withZeroAddress za body := by
  obtain ⟨hsec, hval, -⟩ := s.runCommand_spec (c za)
  rcases exec_cases (c za) s with ⟨⟨hedc, -⟩, -⟩ | ⟨-, he⟩
  · exact absurd hedc (hc.ne_edc za)
  · refine ⟨_, he, s.completesAs_runCommand _, ?_, ?_⟩
    · rw [hval, hc.body_eq, State.mapSector_edcValue]
    · rw [hsec, hc.body_eq, State.mapSector_sector]

theorem EccCommand.sector {za : Bool} {s t : State} (he : exec (c za) s = .next t) :
    t.sector = s.sector.withZeroAddress za body := by
  obtain ⟨t', he', -, -, hsec⟩ := hc.exec_next za s
  exact Host.Outcome.next.inj (he'.symm.trans he) ▸ hsec

/-- Where two states agree on what the passes make of the buffers they see, the command leaves the same parity bytes. -/
theorem EccCommand.read_congr {za : Bool} {s s' t t' : State} (h : s.sector.wf) (h' : s'.sector.wf)
    (he : exec (c za) s = .next t) (he' : exec (c za) s' = .next t') {a : Nat} (ha : 0x010 ≤ a)
    (hbody : (body (s.sector.seen za)).read a = (body (s'.sector.seen za)).read a) : t.sector.read a = t'.sector.read a := by
  rw [hc.sector he, hc.sector he', Memory.read_withZeroAddress_seen hc.keeps h za (.inr ha),
    Memory.read_withZeroAddress_seen hc.keeps h' za (.inr ha), hbody]

end

/-- A command of one pass leaves the parity of the buffer that the pass sees. -/
theorem EccCommand.parityOf_pass {c : Bool → Instr} {p : EccParams} (hc : EccCommand c (Memory.eccBlock p))
    (hp : p.Fits) (hdst : 0x81C ≤ p.dst) {za : Bool} {s t : State} (h : s.sector.wf) (he : exec (c za) s = .next t)
    {m : Memory} (hm : seenWith za s.sector m) : parityOf p m t.sector := by
  rw [eq_seen_of_seenWith h hm, hc.sector he]
  exact parityOf_withZeroAddress hc.keeps h za hp hdst (parityOf_eccBlock (Memory.wf_seen h za) hp)

/-- Settles O25: ECCP is the P pass under the option. -/
theorem eccpWritesTheColumnParities : Obligations.EccpWritesTheColumnParities := by
  intro za s h
  obtain ⟨t, he, hdone, hval, -⟩ := eccCommand_eccp.exec_next za s
  exact ⟨t, he, hdone, hval, fun m hm => eccCommand_eccp.parityOf_pass paramsP_fits (by decide) h he hm,
    fun a ha => read_exec_outside h he (by simp only [storesTo]; omega)⟩

/-- Settles O26: ECCQ is the Q pass under the option. -/
theorem eccqWritesTheColumnParities : Obligations.EccqWritesTheColumnParities := by
  intro za s h
  obtain ⟨t, he, hdone, hval, -⟩ := eccCommand_eccq.exec_next za s
  exact ⟨t, he, hdone, hval, fun m hm => eccCommand_eccq.parityOf_pass paramsQ_fits (by decide) h he hm,
    fun a ha => read_exec_outside h he (by simp only [storesTo]; omega)⟩

/-- Settles O27: the final buffer, seen with the same ZA, is what the two passes made of the buffer they saw. -/
theorem eccpqWritesPThenQ : Obligations.EccpqWritesPThenQ := by
  intro za s h
  have hb := eccCommand_eccpq.keeps
  obtain ⟨t, he, hdone, hval, hsec⟩ := eccCommand_eccpq.exec_next za s
  refine ⟨t, he, hdone, hval, fun m hm => ?_, fun a ha => read_exec_outside h he (by simp only [storesTo]; omega)⟩
  obtain ⟨hparP, hparQ⟩ := parityOf_eccPQ (Memory.wf_seen h za)
  rw [hsec] at hm ⊢
  rw [eq_seen_of_seenWith (Memory.wf_withZeroAddress h za hb.wf) hm, Memory.seen_withZeroAddress hb h za]
  exact ⟨parityOf_withZeroAddress hb h za paramsP_fits (by decide) hparP,
    parityOf_withZeroAddress hb h za paramsQ_fits (by decide) hparQ⟩

/-- Settles O28: the second command sees what the first made of the buffer that it saw. -/
theorem eccpqIsEccpThenEccq : Obligations.EccpqIsEccpThenEccq := by
  intro za s t u v h ht hu hv
  have hbP := eccCommand_eccp.keeps
  have hbQ := eccCommand_eccq.keeps
  have hbPQ := eccCommand_eccpq.keeps
  have hwfP := Memory.wf_withZeroAddress h za hbP.wf
  rw [eccCommand_eccpq.sector ht, eccCommand_eccq.sector hv, eccCommand_eccp.sector hu]
  refine Memory.ext_read (Memory.wf_withZeroAddress h za hbPQ.wf) (Memory.wf_withZeroAddress hwfP za hbQ.wf) (fun a => ?_)
  by_cases ha : 0x00C ≤ a ∧ a < 0x010
  · rw [Memory.read_withZeroAddress_address hbPQ h za ha, Memory.read_withZeroAddress_address hbQ hwfP za ha,
      Memory.read_withZeroAddress_address hbP h za ha]
  · rw [Memory.read_withZeroAddress_seen hbPQ h za (by omega), Memory.read_withZeroAddress_seen hbQ hwfP za (by omega),
      Memory.seen_withZeroAddress hbP h za, Memory.eccPQ]

/-- Settles O29: the buffer with the address bytes zero is the one that the passes see. -/
theorem zeroAddressIsAsIfZeroAndRestored : Obligations.ZeroAddressIsAsIfZeroAndRestored := by
  intro s s' t t' h hseen c hc ht ht'
  obtain ⟨body, hcmd⟩ : ∃ body, EccCommand c body := by
    rcases hc with rfl | rfl | rfl
    · exact ⟨_, eccCommand_eccp⟩
    · exact ⟨_, eccCommand_eccq⟩
    · exact ⟨_, eccCommand_eccpq⟩
  rw [hcmd.sector ht, hcmd.sector ht', eq_seen_of_seenWith h hseen]
  exact ⟨fun a hlo hhi => Memory.read_withZeroAddress_address hcmd.keeps h true ⟨hlo, hhi⟩,
    fun a ha => Memory.read_withZeroAddress_seen hcmd.keeps h true ha⟩

/-! ### Old parity bytes (R135) -/

theorem Memory.read_seen_congr {m m' : Memory} (h : m.wf) (h' : m'.wf) (za : Bool) {a : Nat} (ha : m.read a = m'.read a) :
    (m.seen za).read a = (m'.seen za).read a := by
  rw [Memory.read_seen h, Memory.read_seen h', ha]

/-- Settles O35: the passes read their sources only, and the Q pass of ECCPQ reads the new P. -/
theorem oldParityBytesHaveNoEffect : Obligations.OldParityBytesHaveNoEffect := by
  intro za s s' t t' h h'
  have hsrc : eccSrc = 0x00C := rfl
  have hP : paramsP.dst = 0x81C ∧ paramsP.majorCount = 86 ∧ paramsP.size = 2064 := ⟨rfl, rfl, rfl⟩
  have hQ : paramsQ.dst = 0x8C8 ∧ paramsQ.majorCount = 52 ∧ paramsQ.size = 2236 := ⟨rfl, rfl, rfl⟩
  have hwf := Memory.wf_seen h za
  have hwf' := Memory.wf_seen h' za
  refine ⟨fun heq ht ht' a hlo hhi => ?_, fun heq ht ht' a hlo hhi => ?_, fun heq ht ht' a hlo hhi => ?_⟩
  · exact eccCommand_eccp.read_congr h h' ht ht' (by omega) (Memory.read_eccBlock_congr hwf hwf' paramsP_fits
      (fun b _ hb => Memory.read_seen_congr h h' za (heq b (by omega))) (by omega) (by omega))
  · exact eccCommand_eccq.read_congr h h' ht ht' (by omega) (Memory.read_eccBlock_congr hwf hwf' paramsQ_fits
      (fun b _ hb => Memory.read_seen_congr h h' za (heq b (by omega))) (by omega) (by omega))
  · exact eccCommand_eccpq.read_congr h h' ht ht' (by omega) (Memory.read_eccPQ_congr hwf hwf'
      (fun b _ hb => Memory.read_seen_congr h h' za (heq b hb)) (by omega) hhi)

end Sys2Proof.Machine

/-! # Proofs: NOP and GEN (spec/42_layout.md)

NOP and GEN always run, so `exec_runs` gives each of them the buffer and the EDC_VALUE of its body. What a body leaves is
read off its equation: the EDC store comes first, and what follows it writes behind it. -/

namespace Sys2Proof.Machine

/-! ### Commands that are never rejected (R180, R181) -/

/-- Every command but EDC runs: it completes, with the buffer and the EDC_VALUE of its body. -/
theorem exec_runs {i : Instr} (hi : i ≠ .edc) (s : State) :
    ∃ t, exec i s = .next t ∧ s.completesAs t ∧ t.sector = (commandBody i s).sector ∧
      t.edcValue = (commandBody i s).edcValue := by
  obtain ⟨hsec, hval, -⟩ := s.runCommand_spec i
  rcases exec_cases i s with ⟨⟨hedc, -⟩, -⟩ | ⟨-, he⟩
  · exact absurd hedc hi
  · exact ⟨_, he, s.completesAs_runCommand i, hsec, hval⟩

/-- STATUS after a completed command (R27, R181). -/
theorem State.toWord_of_completesAs {s t : State} (h : s.completesAs t) : t.status.toWord = 0x00000002#32 := by
  obtain ⟨hst, -⟩ := h
  rw [hst]
  decide

/-- A command whose body does nothing completes and changes nothing else (R161, R162). -/
theorem exec_of_commandBody_eq_self {i : Instr} (hi : i ≠ .edc) {s : State} (hbody : commandBody i s = s) :
    ∃ t, exec i s = .next t ∧ s.completesAs t ∧ t.status.toWord = 0x00000002#32 ∧ t.sector = s.sector ∧
      t.edcValue = s.edcValue := by
  obtain ⟨t, he, hdone, hsec, hval⟩ := exec_runs hi s
  rw [hbody] at hsec hval
  exact ⟨t, he, hdone, State.toWord_of_completesAs hdone, hsec, hval⟩

/-- NOP is the only command with OP = 0 (R92). -/
theorem eq_nop_of_fieldOp_encode {i : Instr} (h : fieldOp (encode i) = 0#4) : i = .nop :=
  (by decide : ∀ i ∈ allInstrs, fieldOp (encode i) = 0#4 → i = .nop) i (mem_allInstrs i) h

/-- Settles O12: a word that decodes is the encoding of its command, and the body of NOP does nothing. -/
theorem nopCompletesAndChangesNothing : Obligations.NopCompletesAndChangesNothing := by
  refine ⟨decode_encode .nop, fun w hop hne => ?_, fun s => exec_of_commandBody_eq_self (by decide) rfl⟩
  cases h : decode w with
  | illegal why => exact ⟨why, rfl⟩
  | command i =>
    have hw : w = encode i := (decodeAndEncodeAreInverse w i).1 h
    have hnop : i = .nop := eq_nop_of_fieldOp_encode (hw ▸ hop)
    subst hnop
    exact absurd hw hne

/-- Settles O13: TYPE 0 selects nothing. -/
theorem genT0CompletesAndChangesNothing : Obligations.GenT0CompletesAndChangesNothing :=
  ⟨decode_encode .genT0, fun _ => exec_of_commandBody_eq_self (by decide) rfl⟩

/-! ### The EDC that GEN stores (R112, R115) -/

theorem Memory.loadLE32_congr {m m' : Memory} {o : Nat} (h : ∀ a, o ≤ a → a < o + 4 → m.read a = m'.read a) :
    m.loadLE32 o = m'.loadLE32 o := by
  rw [Memory.loadLE32, Memory.loadLE32, h o (by omega) (by omega), h (o + 1) (by omega) (by omega),
    h (o + 2) (by omega) (by omega), h (o + 3) (by omega) (by omega)]

/-- Where the four bytes of its destination are kept, the stored EDC can be read back. -/
theorem loadLE32_of_keeps_edcStore {s : State} (h : s.sector.wf) {r : EdcRegion} (hfit : r.dst + 4 ≤ Config.sectorSize)
    {m : Memory} (hkeep : ∀ a, r.dst ≤ a → a < r.dst + 4 → m.read a = (s.edcStore r).sector.read a) :
    m.loadLE32 r.dst = edcCompute s.sector r.start r.len :=
  (Memory.loadLE32_congr hkeep).trans (Memory.loadLE32_storeLE32 h hfit _)

/-! ### The zero-pad and the parity that GEN leaves (R163, R164) -/

/-- The zero-pad of GEN.T1 ends as zero: the parity lies behind it. -/
theorem read_commandBody_genT1_zeroPad {s : State} (h : s.sector.wf) {a : Nat} (hlo : 0x814 ≤ a) (hhi : a < 0x81C) :
    (commandBody .genT1 s).sector.read a = 0x00#8 := by
  have hedc := State.wf_edcStore h ⟨0x000, 0x810, 0x810⟩
  have hlen : (List.replicate 8 0#8).length = 8 := rfl
  rw [commandBody_genT1_sector, Memory.read_withZeroAddress_eccPQ_outside (Memory.wf_writeBytes hedc _ _) false (.inl hhi),
    Memory.read_writeBytes hedc _ _ (by decide), if_pos (by omega), List.getD_replicate _ (by omega)]

/-- P and Q, run with either ZA, leave the parity of the buffer as it ends, seen with the same ZA (R136, R139). -/
theorem parityOf_withZeroAddress_eccPQ {m : Memory} (h : m.wf) (za : Bool) :
    parityOf paramsP ((m.withZeroAddress za Memory.eccPQ).seen za) (m.withZeroAddress za Memory.eccPQ) ∧
    parityOf paramsQ ((m.withZeroAddress za Memory.eccPQ).seen za) (m.withZeroAddress za Memory.eccPQ) := by
  have hb := keepsBelowParity_eccPQ
  obtain ⟨hparP, hparQ⟩ := parityOf_eccPQ (Memory.wf_seen h za)
  rw [Memory.seen_withZeroAddress hb h za]
  exact ⟨parityOf_withZeroAddress hb h za paramsP_fits (by decide) hparP,
    parityOf_withZeroAddress hb h za paramsQ_fits (by decide) hparQ⟩

/-- Settles O14: the zero-pad and the parity lie behind the EDC, and the parity behind the zero-pad. -/
theorem genT1WritesEdcPadAndParity : Obligations.GenT1WritesEdcPadAndParity := by
  intro s h
  obtain ⟨t, he, hdone, hsec, hval⟩ := exec_runs (i := .genT1) (by decide) s
  have hwf := Memory.wf_writeBytes (State.wf_edcStore h ⟨0x000, 0x810, 0x810⟩) 0x814 (List.replicate 8 0#8)
  obtain ⟨hparP, hparQ⟩ := parityOf_withZeroAddress_eccPQ hwf false
  rw [← commandBody_genT1_sector, ← hsec] at hparP hparQ
  rw [commandBody_genT1_edcValue] at hval
  refine ⟨t, he, hdone, hval, ?_, fun a hlo hhi => ?_, hparP, hparQ,
    fun a ha => read_exec_outside h he (by simp only [storesTo]; omega)⟩
  · rw [hval, hsec]
    exact loadLE32_of_keeps_edcStore h (r := ⟨0x000, 0x810, 0x810⟩) (by decide)
      (fun a _ hhi => read_commandBody_genT1_of_lt h hhi)
  · rw [hsec, read_commandBody_genT1_zeroPad h hlo hhi]

/-- Settles O15: the parity lies behind the EDC, and is that of the buffer seen with the address bytes zero. -/
theorem genT2WritesEdcAndZeroAddressParity : Obligations.GenT2WritesEdcAndZeroAddressParity := by
  intro s h
  obtain ⟨t, he, hdone, hsec, hval⟩ := exec_runs (i := .genT2) (by decide) s
  have hpar := parityOf_withZeroAddress_eccPQ (State.wf_edcStore h ⟨0x010, 0x808, 0x818⟩) true
  rw [← commandBody_genT2_sector, ← hsec] at hpar
  rw [commandBody_genT2_edcValue] at hval
  have hwf : t.sector.wf := by
    rw [hsec]
    exact wf_commandBody .genT2 h
  refine ⟨t, he, hdone, hval, ?_, fun m hm => ?_,
    fun a ha => read_exec_outside h he (by simp only [storesTo]; omega)⟩
  · rw [hval, hsec]
    exact loadLE32_of_keeps_edcStore h (r := ⟨0x010, 0x808, 0x818⟩) (by decide)
      (fun a _ hhi => read_commandBody_genT2_of_lt h hhi)
  · rw [eq_seen_of_seenWith hwf hm]
    exact hpar

/-- Settles O16: GEN.T3 is the EDC store alone. -/
theorem genT3WritesOnlyTheEdc : Obligations.GenT3WritesOnlyTheEdc := by
  intro s h
  obtain ⟨t, he, hdone, hsec, hval⟩ := exec_runs (i := .genT3) (by decide) s
  rw [commandBody_genT3_edcValue] at hval
  refine ⟨t, he, hdone, hval, ?_, fun a ha => read_exec_outside h he (by simp only [storesTo]; omega)⟩
  rw [hval, hsec, commandBody_genT3_sector]
  exact loadLE32_of_keeps_edcStore h (r := ⟨0x010, 0x91C, 0x92C⟩) (by decide) (fun _ _ _ => rfl)

/-! ### The input sets of GEN (R167) -/

/-- Two runs of a GEN command on buffers that agree on its input set give the same outputs. -/
theorem exec_gen_congr {i : Instr} (hi : i = .genT1 ∨ i = .genT2 ∨ i = .genT3) {s s' t t' : State} (hs : s.sector.wf)
    (hs' : s'.sector.wf) (h : ∀ a, genInput i a → s.sector.read a = s'.sector.read a) (he : exec i s = .next t)
    (he' : exec i s' = .next t') :
    t.edcValue = t'.edcValue ∧ ∀ a, storesTo i s a → t.sector.read a = t'.sector.read a := by
  obtain ⟨hsec, hval⟩ := exec_gen hi he
  obtain ⟨hsec', hval'⟩ := exec_gen hi he'
  rw [hsec, hval, hsec', hval']
  exact commandBody_gen_congr hi hs hs' h

/-- Settles O18: the three input sets and the three sets of stored bytes, written out. -/
theorem genOutputsDependOnInputSetOnly : Obligations.GenOutputsDependOnInputSetOnly := by
  intro s s' t t' hs hs'
  refine ⟨fun h he he' => ?_, fun h he he' => ?_, fun h he he' => ?_⟩
  · obtain ⟨hval, hsec⟩ := exec_gen_congr (i := .genT1) (by simp) hs hs' h he he'
    exact ⟨hval, fun a hlo hhi => hsec a ⟨hlo, hhi⟩⟩
  · obtain ⟨hval, hsec⟩ := exec_gen_congr (i := .genT2) (by simp) hs hs' (fun a ⟨hlo, hhi⟩ => h a hlo hhi) he he'
    exact ⟨hval, fun a hlo hhi => hsec a ⟨hlo, hhi⟩⟩
  · obtain ⟨hval, hsec⟩ := exec_gen_congr (i := .genT3) (by simp) hs hs' (fun a ⟨hlo, hhi⟩ => h a hlo hhi) he he'
    exact ⟨hval, fun a hlo hhi => hsec a ⟨hlo, hhi⟩⟩

end Sys2Proof.Machine

/-! # Proofs: a step, command acceptance and errors (spec/60_exceptions.md)

A rejection is one write to STATUS, and every CMD write starts by clearing the outcome before it: these two equations, with
the cases of `exec` and of `step`, give the statements about errors. Reset and the end of a run are single steps. -/

namespace Sys2Proof.Machine

/-! ### Rejection (R180, R181, R184) -/

/-- Error entry writes STATUS alone (R184). -/
theorem State.reject_eq (e : CommandError) (s : State) :
    s.reject e = { s with status := ⟨s.status.busy, false, true, e.code⟩ } := rfl

/-- Error entry on an idle block (R181, R184). -/
theorem State.reject_of_not_busy {e : CommandError} {s : State} (h : s.status.busy = false) :
    s.reject e = { s with status := ⟨false, false, true, e.code⟩ } := by
  rw [State.reject_eq, h]

/-- An illegal word is stored and rejected (R26, R94, R181). -/
theorem commandWrite_of_illegal {w : Word} (h : ∃ why, decode w = .illegal why) (s : State) :
    commandWrite w s = .next ((s.setCmd w).reject .illegalCmd) := by
  obtain ⟨why, hd⟩ := h
  simp only [commandWrite, hd]

/-- The rejected command of `exec_cases` in the words of R182. -/
theorem commandRejected_iff (i : Instr) (s : State) : commandRejected i s ↔ i = .edc ∧ ¬ s.edcOperandsOk := by
  rw [commandRejected, State.edcOperandsOk_iff_inRange, Bool.not_eq_true]

/-- With an operand out of range EDC is rejected (R182). -/
theorem exec_edc_of_not_operandsOk {s : State} (h : ¬ s.edcOperandsOk) : exec .edc s = .next (s.reject .edcRange) := by
  rcases exec_cases .edc s with ⟨-, he⟩ | ⟨hr, -⟩
  · exact he
  · exact absurd ((commandRejected_iff .edc s).2 ⟨rfl, h⟩) hr

/-- Settles O7: both rejections are the error entry, on the state in which CMD holds the word. -/
theorem rejectedCommandWritesOnlyCmdAndError : Obligations.RejectedCommandWritesOnlyCmdAndError := by
  intro s w rest hs hbusy hp
  refine ⟨fun hill => ?_, fun hd hbad => ?_⟩
  · rw [step_cmd hs hp, commandWrite_of_illegal hill, State.reject_of_not_busy]
    · rfl
    · exact hbusy
  · rw [stepRunsTheCommandWritten s w .edc rest hs hp hd, exec_edc_of_not_operandsOk, State.reject_of_not_busy]
    · rfl
    · exact hbusy
    · exact hbad

/-- Settles O10: the two cases of EDC. -/
theorem edcRejectedExactlyOutOfRange : Obligations.EdcRejectedExactlyOutOfRange := by
  intro s
  refine ⟨fun hok => ?_, fun hbad => ?_⟩
  · obtain ⟨hst, -⟩ := s.completesAs_runCommand .edc
    exact ⟨_, exec_edc_of_operandsOk hok, hst⟩
  · exact ⟨_, exec_edc_of_not_operandsOk hbad, rfl⟩

/-- STATUS after an EDC rejected on an idle block (R27, R181). -/
theorem State.toWord_reject_edcRange {s : State} (h : s.status.busy = false) :
    (s.reject .edcRange).status.toWord = 0x00000024#32 := by
  simp only [State.reject_of_not_busy h]
  decide

/-- Settles O11: a command is rejected, which only EDC can be, or it runs to its end. -/
theorem everyCommandEndsDoneOrRejected : Obligations.EveryCommandEndsDoneOrRejected := by
  intro i s hbusy
  rcases exec_cases i s with ⟨hr, he⟩ | ⟨hr, he⟩
  · obtain ⟨hi, hbad⟩ := (commandRejected_iff i s).1 hr
    exact ⟨_, he, .inr ⟨State.toWord_reject_edcRange hbusy, rfl, hi, hbad⟩⟩
  · have hok : i = .edc → s.edcOperandsOk := by simpa [commandRejected_iff] using hr
    exact ⟨_, he, .inl ⟨State.toWord_of_completesAs (s.completesAs_runCommand i), rfl, hok⟩⟩

/-! ### The outcome in STATUS (R181, R185) -/

/-- No command sees the outcome of the one before: it is cleared first (R181). -/
theorem exec_clearOutcome (i : Instr) (s : State) : exec i s.clearOutcome = exec i s := by
  cases i <;> rfl

/-- A CMD write gives the same next state from a cleared outcome, whatever its word (R181, R185). -/
theorem commandWrite_clearOutcome (w : Word) (s : State) : commandWrite w s.clearOutcome = commandWrite w s := by
  cases hd : decode w with
  | illegal why =>
    rw [commandWrite_of_illegal ⟨why, hd⟩, commandWrite_of_illegal ⟨why, hd⟩]
    rfl
  | command i =>
    simp only [commandWrite, hd]
    exact exec_clearOutcome i (s.setCmd w)

/-- The step that performs a CMD write does not see the outcome before it either (R185). -/
theorem step_cmd_clearOutcome {s : State} {w : Word} {rest : List HostEvent} (hs : s.seq = .idle)
    (hp : s.port = cmdw w :: rest) : step s.clearOutcome = step s := by
  rw [step_cmd hs hp, step_cmd (s := s.clearOutcome) hs hp]
  exact commandWrite_clearOutcome w ((s.setPort rest).respond [.okay])

/-- Settles O9: with their outcomes cleared the two states are the same, so the two steps are. -/
theorem commandWriteForgetsTheOldOutcome : Obligations.CommandWriteForgetsTheOldOutcome := by
  intro s t t' w rest d e c hs hp h h'
  have hclear : step s.clearOutcome = .next t := (step_cmd_clearOutcome hs hp).trans h
  have hclear' : step s.clearOutcome = .next t' :=
    (step_cmd_clearOutcome (s := { s with status := { s.status with done := d, err := e, errCode := c } }) hs hp).trans h'
  exact congrArg State.status (Host.Outcome.next.inj (hclear.symm.trans hclear'))

/-- The port accepts CMD as a word only (R69). -/
theorem size_eq_four_of_portAccepts_cmd {size : Nat} (h : portAccepts cmdOffset size = true) : size = 4 := by
  rcases (portAccepts_iff cmdOffset size).1 h with ⟨h4, -⟩ | ⟨-, hwin⟩
  · exact h4
  · exact absurd hwin (by decide)

/-- Settles O8: by the cases of a step. The three excluded ones are the only ones that write DONE, ERR or ERRCODE; the end of
INIT writes BUSY, and no other access writes STATUS. -/
theorem outcomeKeptUntilNextCommandWrite : Obligations.OutcomeKeptUntilNextCommandWrite := by
  intro s t hreset hexec hcmd hstep
  rcases step_cases hstep with ⟨rest, hp, -⟩ | ⟨-, rfl⟩ | ⟨c, hs, -⟩ | ⟨-, -, rfl⟩ | ⟨-, a, rest, -, -, -, rfl⟩ |
    ⟨-, off, size, rest, -, -, rfl⟩ | ⟨-, off, size, v, rest, -, -, -, rfl⟩ | ⟨hs, size, w, rest, hp, hacc, -⟩
  · exact absurd hp (hreset rest)
  · exact ⟨rfl, rfl, rfl⟩
  · exact absurd hs (hexec c)
  · exact ⟨rfl, rfl, rfl⟩
  · exact ⟨rfl, rfl, rfl⟩
  · exact ⟨rfl, rfl, rfl⟩
  · simp
  · obtain rfl := size_eq_four_of_portAccepts_cmd hacc
    exact absurd hp (hcmd hs w rest)

/-! ### Reset (R183, R210) -/

/-- A reset at the head of the queue is performed in every sequencer state (R183, R210). -/
theorem step_reset {s : State} {rest : List HostEvent} (hp : s.port = .reset :: rest) :
    step s = .next (s.setPort rest).assertReset := by
  simp only [step, hp]

/-- A reset during an access has no meaning in the model (R210). -/
theorem step_resetDuring {s : State} {a : Access} {rest : List HostEvent} (hp : s.port = .resetDuring a :: rest) :
    step s = .refused .accessInFlightAtReset := by
  simp only [step, hp]

/-- Settles O52: the fields of the reset state. -/
theorem resetSetsEveryResetValue : Obligations.ResetSetsEveryResetValue := by
  intro s rest
  refine ⟨fun hp => ?_, fun a hp => step_resetDuring hp⟩
  exact ⟨_, step_reset hp, fun _ => rfl, rfl, rfl, rfl, rfl, rfl, rfl, rfl, rfl, rfl, rfl, rfl⟩

/-! ### The end of a run (R190, R220) -/

/-- BUSY = 0 says that the sequencer is in IDLE (R27, R32). -/
theorem State.Inv.idle_of_not_busy {s : State} (h : s.Inv) (hbusy : s.status.busy = false) : s.seq = .idle := by
  obtain ⟨-, ⟨hiff, -⟩, -⟩ := h
  by_contra hne
  exact absurd (hiff.2 hne) (by simp [hbusy])

/-- An idle block with nothing at its port waits (R213). -/
theorem step_of_idle_of_port_nil {s : State} (hs : s.seq = .idle) (hp : s.port = []) : step s = .next s := by
  rw [step_eq_advance (by simp [hp]) (by simp [hp]), State.advance, hs]
  simp only [hp]

/-- Settles O57: under the invariant an ended run leaves an idle block with an empty port. -/
theorem endedRunStaysAsItIs : Obligations.EndedRunStaysAsItIs := by
  intro s h hend
  obtain ⟨hp, hbusy⟩ : s.port = [] ∧ s.status.busy = false := by simpa [State.runEnded] using hend
  exact step_of_idle_of_port_nil (h.idle_of_not_busy hbusy) hp

end Sys2Proof.Machine

/-! # Proofs: where the sequencer rests, and the state after reset and INIT (spec/70_reset_and_hazards.md)

A command ends in IDLE: one that runs completes, and one that is rejected is rejected on an idle block. The cases of a step
then leave INIT, after a reset, and IDLE. The state after INIT is the reset state with INIT ended. -/

namespace Sys2Proof.Machine

/-! ### Where a command leaves the sequencer (R181, R218) -/

/-- A command that runs completes into IDLE, and a rejection leaves the sequencer where it was (R181, R184). -/
theorem exec_next_seq {i : Instr} {s t : State} (he : exec i s = .next t) (hrej : commandRejected i s → s.seq = .idle) :
    t.seq = .idle := by
  rcases exec_next_cases he with ⟨hr, rfl⟩ | ⟨-, rfl⟩
  · exact hrej hr
  · obtain ⟨-, -, -, -, -, -, hseq, -⟩ := s.runCommand_spec i
    exact hseq

/-- Whatever the word, an idle block is idle again after a write to CMD (R181). -/
theorem commandWrite_next_seq {w : Word} {s t : State} (he : commandWrite w s = .next t) (hs : s.seq = .idle) :
    t.seq = .idle := by
  rcases commandWrite_next_cases he with ⟨why, -, rfl⟩ | ⟨i, -, he⟩
  · exact hs
  · exact exec_next_seq he (fun _ => hs)

/-- Under the invariant a command in EXEC was accepted (R181, R182). -/
theorem State.Inv.not_commandRejected {s : State} (h : s.Inv) {c : Instr} (hs : s.seq = .exec c) :
    ¬ commandRejected c s := by
  obtain ⟨-, -, -, -, -, hexec, -⟩ := h
  rintro ⟨hc, hr⟩
  obtain ⟨-, hrange⟩ := hexec c hs
  exact absurd (hrange hc) (by simp [hr])

/-- Under the invariant a step ends in INIT or in IDLE (R32, R218). -/
theorem State.Inv.step_seq {s t : State} (h : s.Inv) (hstep : step s = .next t) : t.seq = .init ∨ t.seq = .idle := by
  rcases step_cases hstep with ⟨rest, -, rfl⟩ | ⟨-, rfl⟩ | ⟨c, hs, he⟩ | ⟨hs, -, rfl⟩ | ⟨hs, a, rest, -, -, -, rfl⟩ |
    ⟨hs, off, size, rest, -, -, rfl⟩ | ⟨hs, off, size, v, rest, -, -, -, rfl⟩ | ⟨hs, size, w, rest, -, -, he⟩
  · exact .inl rfl
  · exact .inr rfl
  · exact .inr (exec_next_seq he (fun hr => absurd hr (h.not_commandRejected hs)))
  · exact .inr hs
  · exact .inr hs
  · exact .inr hs
  · exact .inr (by simpa using hs)
  · exact .inr (commandWrite_next_seq he hs)

/-- Settles O56: INIT and IDLE are where a step ends. -/
theorem noStepRestsInExec : Obligations.NoStepRestsInExec := by
  intro s t h hstep c hc
  rcases h.step_seq hstep with hinit | hidle
  · exact absurd (hinit.symm.trans hc) (by simp)
  · exact absurd (hidle.symm.trans hc) (by simp)

/-! ### The state after reset and INIT (R210, R212) -/

/-- The state after reset is one that a reset leaves (R210). -/
theorem State.assertReset_reset : State.reset.assertReset = State.reset := rfl

/-- Settles O53: a reset reaches the invariant from any state, and the reset state is one that it leaves. -/
theorem resetMeetsTheInvariant : Obligations.ResetMeetsTheInvariant := by
  unfold Obligations.ResetMeetsTheInvariant
  rw [← State.assertReset_reset]
  exact State.inv_assertReset State.reset

/-- The step from the reset state is the end of INIT: its port holds no second reset (R211). -/
theorem step_reset_state : step State.reset = .next State.reset.endInit :=
  step_init rfl (by simp [State.reset]) (by simp [State.reset])

/-- Settles O51: the end of INIT clears BUSY and leaves every other field at its reset value. -/
theorem stateAfterInit : Obligations.StateAfterInit :=
  ⟨_, step_reset_state, fun _ => rfl, rfl, by decide, by decide, rfl, rfl, rfl, rfl, rfl, rfl, rfl, rfl⟩

end Sys2Proof.Machine

/-! # Proofs: the placed word (spec/30_encoding.md, spec/60_exceptions.md; assumption log entry 1)

A placed word is a write to CMD at the head of an idle block's port, so the step of such a write is the step from it. -/

namespace Sys2Proof.Machine

/-- The word of the 32 lowest bits of a number is that of the number (R90). -/
theorem ofNat_mod_word (w : Nat) : BitVec.ofNat 32 (w % 2 ^ 32) = BitVec.ofNat 32 w :=
  BitVec.eq_of_toNat_eq (by simp)

/-- Of 32 bits the table decoder reads the word that the block decodes (R90, R93). -/
theorem decodeTableWord_eq_some_iff (w : Nat) (i : Instr) :
    decodeTableWord 32 w = some i ↔ decode (BitVec.ofNat 32 w) = .command i := by
  have hlt : w % 2 ^ 32 < 2 ^ 32 := Nat.mod_lt _ (by decide)
  simp only [decodeTableWord, if_pos hlt, ofNat_mod_word]
  cases decode (BitVec.ofNat 32 w) with
  | command j => simp
  | illegal why => simp

theorem State.withFetchWord_seq (s : State) (nbits w : Nat) : (s.withFetchWord nbits w).seq = .idle := rfl

theorem State.withFetchWord_port (s : State) (w : Nat) :
    (s.withFetchWord 32 w).port = cmdw (BitVec.ofNat 32 w) :: s.port := by
  rw [← ofNat_mod_word]
  rfl

/-- Settles O6: the placed word is the write to CMD that O5 speaks of. -/
theorem fetchedWordRunsNext : Obligations.FetchedWordRunsNext := by
  intro s w i hw
  exact stepRunsTheCommandWritten (s.withFetchWord 32 w) (BitVec.ofNat 32 w) i s.port (s.withFetchWord_seq 32 w)
    (s.withFetchWord_port w) ((decodeTableWord_eq_some_iff w i).1 hw)

end Sys2Proof.Machine
